-- ==== Sys2Proof/Word.lean ====
section
/-!
DEFINITION. The word types of GEM-FVD: bytes of the frame (00_scope.md R10), the 16-bit operand and value
fields (30_encoding.md R72, R80), the 32-bit port words (00_scope.md R9, WORD_BITS) and the 64-bit values of
the Reading (42_field_decode.md R155, R171).
-/

namespace Sys2Proof

/-- A byte, 8 bits, unsigned (R10). -/
abbrev Byte := BitVec 8

/-- A 16-bit field: IMM of a command word, VAL of a response word, a u16 of the Reading. -/
abbrev Half := BitVec 16

/-- A word of the command port or of the response port (WORD_BITS = 32, R9). -/
abbrev Word := BitVec 32

/-- A value of the Reading payload (R171). -/
abbrev Dword := BitVec 64

end Sys2Proof
end

