-- ==== Sys2Proof/Syntax.lean ====
section
/-!
DEFINITION. The abstract command set of 30_encoding.md R71: one constructor for each row of
spec/opcode_table.json.
-/

namespace Sys2Proof

/-- `Cmd` of R71. A chunk may have any length, including 0 (R17), and an index is any natural number. -/
inductive Instr where
  /-- APPEND(chunk), R101. -/
  | append (chunk : List Byte)
  /-- RESET, R106. -/
  | reset
  /-- IS_COMPLETE, R104. -/
  | isComplete
  /-- IS_EMPTY, R105. -/
  | isEmpty
  /-- OUTSTANDING, R107. -/
  | outstanding
  /-- DECODE, R130. -/
  | decode
  /-- PEEK(idx), R108. -/
  | peek (idx : Nat)
  deriving DecidableEq, Repr

end Sys2Proof
end

