-- ==== Sys2Proof/WellFormed.lean ====
section
/-!
DEFINITION. Which abstract commands have a binary form (30_encoding.md R79): the chunk length and the index
must fit the 16-bit IMM field (R73).
-/

namespace Sys2Proof

/-- The command has a binary form: its operand fits LEN or IDX, 0..65535 (R73, R79). -/
def Instr.wellFormed : Instr → Bool
  | .append chunk => chunk.length ≤ 65535
  | .reset        => true
  | .isComplete   => true
  | .isEmpty      => true
  | .outstanding  => true
  | .decode       => true
  | .peek idx     => idx ≤ 65535

end Sys2Proof
end

