-- ==== Sys2Proof/Decode.lean ====
section
/-!
DEFINITION. The binary transport of 30_encoding.md: reading a command word and its payload from the words on
the command port (R72 to R78), and after it the encoder written from the same tables (R72, R74, R75).
-/

namespace Sys2Proof

/-! ### The opcode map (R74) -/

namespace Opcode

abbrev append      : Byte := 0x01
abbrev reset       : Byte := 0x02
abbrev isComplete  : Byte := 0x03
abbrev isEmpty     : Byte := 0x04
abbrev outstanding : Byte := 0x05
abbrev decode      : Byte := 0x06
abbrev peek        : Byte := 0x07

end Opcode

/-- The opcode a command is sent with (R74), which its response carries back as ROPC (R80). -/
def Instr.opcode : Instr → Byte
  | .append _    => Opcode.append
  | .reset       => Opcode.reset
  | .isComplete  => Opcode.isComplete
  | .isEmpty     => Opcode.isEmpty
  | .outstanding => Opcode.outstanding
  | .decode      => Opcode.decode
  | .peek _      => Opcode.peek

/-! ### Fields of the command word (R72) -/

/-- OPC, bits [31:24]. -/
def opcOf (w : Word) : Byte := w.extractLsb' 24 8

/-- RSV, bits [23:16]. -/
def rsvOf (w : Word) : Byte := w.extractLsb' 16 8

/-- IMM, bits [15:0], never sign-extended, scaled or shifted (R73). -/
def immOf (w : Word) : Half := w.extractLsb' 0 16

/-- The payload words that follow a command word: ceil(IMM/4) when OPC = 0x01, whether or not RSV = 0, and
none otherwise (R76). -/
def payloadCount (w : Word) : Nat :=
  if opcOf w = Opcode.append then ((immOf w).toNat + 3) / 4 else 0

/-- The four chunk bytes a payload word carries, first byte in bits [31:24] (R75). -/
def wordBytes (w : Word) : List Byte :=
  [w.extractLsb' 24 8, w.extractLsb' 16 8, w.extractLsb' 8 8, w.extractLsb' 0 8]

/-- The chunk of `len` bytes carried by the payload words; the padding after it is dropped (R75). -/
def chunkOf (len : Nat) (payload : List Word) : List Byte :=
  (payload.flatMap wordBytes).take len

/-! ### Reading one command -/

/-- Which of the tests of R77 a word fails first. The response is the same for all three. -/
inductive IllegalReason where
  /-- (a) OPC is not in 0x01..0x07. -/
  | opcode
  /-- (b) RSV is not 0x00. -/
  | reserved
  /-- (c) IMM is not 0x0000 where the opcode takes no operand. -/
  | operand
  deriving DecidableEq, Repr

/-- The command an assigned opcode stands for, with its operand (R73, R74); none for any other opcode. -/
def instrOfOpcode (opc : Byte) (imm : Half) (payload : List Word) : Option Instr :=
  if opc = Opcode.append then some (.append (chunkOf imm.toNat payload))
  else if opc = Opcode.reset then some .reset
  else if opc = Opcode.isComplete then some .isComplete
  else if opc = Opcode.isEmpty then some .isEmpty
  else if opc = Opcode.outstanding then some .outstanding
  else if opc = Opcode.decode then some .decode
  else if opc = Opcode.peek then some (.peek imm.toNat)
  else none

/-- The opcode's IMM field must be 0x0000 (R72): the opcodes 0x02..0x06. -/
def takesNoOperand (opc : Byte) : Bool := 0x02 ≤ opc.toNat && opc.toNat ≤ 0x06

/-- One command word with the payload words that belong to it. Test (a) of R77 is made first, then (b), then
(c). -/
def decodeWord (w : Word) (payload : List Word) : Except IllegalReason Instr :=
  match instrOfOpcode (opcOf w) (immOf w) payload with
  | none => .error .opcode
  | some i =>
    if rsvOf w ≠ 0x00 then .error .reserved
    else if takesNoOperand (opcOf w) && immOf w ≠ 0x0000 then .error .operand
    else .ok i

/-- What stands at the front of the command port. -/
inductive Decoded where
  /-- No command word is there. -/
  | idle
  /-- A command word is there and its payload has not all arrived. -/
  | waiting
  /-- A legal command, and the words after it. -/
  | command (i : Instr) (rest : List Word)
  /-- An illegal command word, its OPC as received, the first test of R77 it fails, and the words after its
  payload, which is drained (R76, R77). -/
  | illegal (opc : Byte) (why : IllegalReason) (rest : List Word)
  deriving DecidableEq, Repr

/-- Reads one command from the words on the port (R76). -/
def decodeCommand : List Word → Decoded
  | [] => .idle
  | w :: ws =>
    if ws.length < payloadCount w then .waiting
    else
      match decodeWord w (ws.take (payloadCount w)) with
      | .ok i      => .command i (ws.drop (payloadCount w))
      | .error why => .illegal (opcOf w) why (ws.drop (payloadCount w))

/-! ### The encoder -/

/-- A command word `OPC ++ RSV ++ IMM` with RSV = 0x00 (R72). -/
def commandWord (opc : Byte) (imm : Half) : Word := opc ++ ((0x00 : Byte) ++ imm)

/-- Four chunk bytes in one payload word, the first in bits [31:24] (R75). -/
def packWord (b0 b1 b2 b3 : Byte) : Word := ((b0 ++ b1) ++ b2) ++ b3

/-- The payload words of a chunk, with 0x00 in the padding of the last one (R75 lets it hold any value). -/
def packBytes : List Byte → List Word
  | [] => []
  | [b0] => [packWord b0 0x00 0x00 0x00]
  | [b0, b1] => [packWord b0 b1 0x00 0x00]
  | [b0, b1, b2] => [packWord b0 b1 b2 0x00]
  | b0 :: b1 :: b2 :: b3 :: bs => packWord b0 b1 b2 b3 :: packBytes bs

/-- The words of a well-formed command (R72, R74, R75). A command that is not well-formed has no binary form (R79), and
the words this gives for one, with LEN or IDX cut to 16 bits, stand for nothing: a host sends `Instr.portWords`. -/
def encode : Instr → List Word
  | .append chunk => commandWord Opcode.append (BitVec.ofNat 16 chunk.length) :: packBytes chunk
  | .reset        => [commandWord Opcode.reset 0x0000]
  | .isComplete   => [commandWord Opcode.isComplete 0x0000]
  | .isEmpty      => [commandWord Opcode.isEmpty 0x0000]
  | .outstanding  => [commandWord Opcode.outstanding 0x0000]
  | .decode       => [commandWord Opcode.decode 0x0000]
  | .peek idx     => [commandWord Opcode.peek (BitVec.ofNat 16 idx)]

/-- The command a host sends for a command: itself where it has a binary form. For one that has none, R79 says which
binary commands have its result: any APPEND with LEN in 626..65535, and a PEEK answered ERR_INDEX. Which of them is sent is
the model's choice: the first 65535 bytes of the chunk, and index 65535 (DESIGN CHOICE, log entry 11). -/
def Instr.binaryForm : Instr → Instr
  | .append chunk => .append (chunk.take 65535)
  | .reset        => .reset
  | .isComplete   => .isComplete
  | .isEmpty      => .isEmpty
  | .outstanding  => .outstanding
  | .decode       => .decode
  | .peek idx     => .peek (min idx 65535)

/-- The words a host puts on the command port for a command, of every length and index (R79; log entry 11). -/
def Instr.portWords (i : Instr) : List Word := encode i.binaryForm

/-! ### The opcode table's numbering of bits -/

/-- The port words of a command whose bits are `w`, numbered as spec/opcode_table.json numbers them: the
command word in bits 31..0, then payload word `j` in bits 32(j+1)+31..32(j+1). Bits at and above `nbits` are 0,
so a payload the table gives no bits is words of zeros. -/
def tableWords (nbits w : Nat) : List Word :=
  let v := w % 2 ^ nbits
  let c := BitVec.ofNat 32 v
  c :: (List.range (payloadCount c)).map fun j => BitVec.ofNat 32 (v >>> (32 * (j + 1)))

/-- The command the decoder reads from those words, or none where it refuses them. -/
def decodeTableWord (nbits w : Nat) : Option Instr :=
  match decodeCommand (tableWords nbits w) with
  | .command i _    => some i
  | .idle           => none
  | .waiting        => none
  | .illegal _ _ _  => none

end Sys2Proof
end

