-- ==== Sys2Proof/Config.lean ====
section
/-!
DEFINITION. The fixed constants of GEM-FVD (00_scope.md R8) and the form of its one parameter, LAYOUT
(20_memory.md R48). The default layout itself, LAYOUT_GEM625, stands in Machine/Layout.lean.
-/

namespace Sys2Proof.Config

/-- FRAME_SIZE of R8: the bytes of one frame. -/
@[simp] abbrev frameSize : Nat := 625

/-- HDR_LEN of R8. -/
@[simp] abbrev headerLength : Nat := 3

/-- FTR_OFF of R8. -/
@[simp] abbrev footerOffset : Nat := 622

/-- CKS_OFF of R8, the last byte. -/
@[simp] abbrev checksumOffset : Nat := 624

/-- N_ENERGY of R8. -/
@[simp] abbrev energyCount : Nat := 48

/-- N_CURRENT of R8. -/
@[simp] abbrev currentCount : Nat := 48

/-- N_PULSE of R8. -/
@[simp] abbrev pulseCount : Nat := 4

/-- N_TEMP of R8. -/
@[simp] abbrev tempCount : Nat := 8

/-- LAYOUT of R48: the start offset of each data field. Widths, counts and byte orders do not vary. -/
structure Layout where
  volt   : Nat
  absE   : Nat
  polE   : Nat
  serial : Nat
  dtype  : Nat
  curr   : Nat
  secs   : Nat
  pulse  : Nat
  temp   : Nat
  stamp  : Nat
  deriving DecidableEq, Repr

end Sys2Proof.Config
end

