-- ==== Sys2Proof/Machine/State.lean ====
section
/-!
DEFINITION. The state of one GEM-FVD instance and of its port pair (10_state.md R20, R32), the response record
(30_encoding.md R71), the Reading (42_field_decode.md R170), and the reset state (70_reset_and_hazards.md R230).
-/

namespace Sys2Proof.Machine

/-- The Frame Buffer as (offset, byte) cells in one canonical form: offsets strictly rising, below 625, and no
cell that holds what an unlisted offset reads as (`Memory.wf` in Machine/Ops.lean). -/
abbrev Memory := List Host.Cell

/-- CUR: an unsigned 10-bit counter whose legal values are 0..625; the encodings 626..1023 can never be held
(R22, which allows this type). -/
abbrev Cursor := Fin 626

/-- The ten status codes of R81. Their numbers stand in Machine/Response.lean. -/
inductive Status where
  | ok
  | errEmpty
  | errOverflow
  | errHeader
  | errIncomplete
  | errFooter
  | errChecksum
  | errField
  | errIndex
  | errIllegal
  deriving DecidableEq, Repr

/-- `timestamp` of R170: (YEAR, MO, D, H, MI, S), with YEAR in 16 bits (R167). -/
structure Timestamp where
  year   : Half
  month  : Byte
  day    : Byte
  hour   : Byte
  minute : Byte
  second : Byte
  deriving DecidableEq, Repr

/-- The Reading record of R170, with the counts N_ENERGY, N_CURRENT, N_PULSE and N_TEMP of R8. `deviceId` is its ASCII characters, one byte each (R161). -/
structure Reading where
  voltageRaw     : Half
  absEnergy      : Vector Dword 48
  polEnergy      : Vector Dword 48
  serial         : Half
  deviceType     : Byte
  deviceId       : List Byte
  currentRaw     : Vector Half 48
  elapsedSeconds : Word
  pulse          : Vector Word 4
  tempRaw        : Vector Half 8
  timestamp      : Timestamp
  deriving DecidableEq, Repr

/-- `Rsp` of R71: the opcode answered, the status, the value, and the Reading where there is one. -/
structure Rsp where
  opc     : Byte
  status  : Status
  val     : Half
  reading : Option Reading
  deriving DecidableEq, Repr

/-- One instance with its port pair.

The architectural state of the block is `fb` and `cur`, exactly (R20). `cmdPort` and `rspPort` are what stands
on the two ports (R208): the response port is in the reset table of R32, and the command port's words are the
model's own field for the block's input (DESIGN CHOICE, log entry 1). -/
structure State where
  /-- FB, the Frame Buffer. -/
  fb      : Memory
  /-- CUR, the cursor. -/
  cur     : Cursor
  /-- The command port: the words of the command the host has issued, and after them the words of the commands it issues
  next, each only when it has taken the response before (R54, R212; log entry 1). -/
  cmdPort : List Word
  /-- The response port: the response of the last command performed, or none pending. -/
  rspPort : Option Rsp
  deriving DecidableEq, Repr

/-- No operation of GEM-FVD traps, halts or faults (R13, R100): there is no fault. -/
inductive Fault
  deriving DecidableEq, Repr

/-- Why a command could have no meaning. -/
inductive Refusal where
  /-- Raised by an arm of `exec` for a command that has no meaning yet, by its mnemonic. No arm raises it: every
  command is modelled. Safe. -/
  | notModelled (mnemonic : String)
  deriving DecidableEq, Repr

/-- Power-on reset (R230, R32): CUR = 0, every byte of FB 0x00 and stale, no response pending, and the block
waiting for its first command word (R231). -/
def State.reset : State where
  fb      := []
  cur     := 0
  cmdPort := []
  rspPort := none

end Sys2Proof.Machine
end

