-- ==== Sys2Proof/Machine/Ops.lean ====
section
/-!
DEFINITION. The named operations over the Frame Buffer, the cursor and the response port: R11 (state access),
R24 (live and stale bytes), and `respond` of R13, the one way a command ends. There is no trap entry and no
return from one (60_exceptions.md R204, R205): a failing command ends in `respond` too.
-/

namespace Sys2Proof.Machine

/-! ### The Frame Buffer -/

/-- What a byte of FB reads as that no cell lists: the reset contents, 0x00 (R32, R106). -/
def Memory.unlisted : Byte := 0x00

/-- `FB[a]` (R11). -/
def Memory.read : Memory → Nat → Byte
  | [], _ => Memory.unlisted
  | (k, b) :: m, a => if k = a then b else Memory.read m a

/-- The cells without the one at `a`. -/
def Memory.erase (m : Memory) (a : Nat) : Memory := m.filter fun c => c.1 ≠ a

/-- The cells with `(a, b)` put before the first cell of a larger offset. -/
def Memory.insert : Memory → Nat → Byte → Memory
  | [], a, b => [(a, b)]
  | (k, v) :: m, a, b => if a < k then (a, b) :: (k, v) :: m else (k, v) :: Memory.insert m a b

/-- `FB[a] <- b` (R11), in canonical form: writing what an unlisted byte reads as removes the cell. -/
def Memory.write (m : Memory) (a : Nat) (b : Byte) : Memory :=
  if b = Memory.unlisted then m.erase a else (m.erase a).insert a b

/-- `MemWrite(addr, n, bytes)` (R11): the bytes in order from `addr` on. -/
def Memory.writeList : Memory → Nat → List Byte → Memory
  | m, _, [] => m
  | m, a, b :: bs => Memory.writeList (m.write a b) (a + 1) bs

/-- FB with every byte 0x00, which RESET leaves (R106). -/
def Memory.clear : Memory := []

/-- The canonical form: offsets strictly rising, all below 625 (R40), and no cell that holds what an unlisted
byte reads as. -/
abbrev Memory.wf (m : Memory) : Prop :=
  m.Pairwise (fun c d => c.1 < d.1) ∧ ∀ c ∈ m, c.1 < Config.frameSize ∧ c.2 ≠ Memory.unlisted

/-! ### Live and stale bytes (R24) -/

/-- The value a byte of FB has for a reader: a live byte has one, a stale byte has none (R24). -/
def State.liveByte (s : State) (a : Nat) : Option Byte :=
  if a < s.cur.val then some (s.fb.read a) else none

/-- The live prefix FB[0..CUR-1] (R35). -/
def State.live (s : State) : List Byte := (List.range s.cur.val).map s.fb.read

/-- `MemRead(addr, n)` with its precondition `addr + n <= CUR` (R11): none where it does not hold. -/
def State.memRead (s : State) (addr n : Nat) : Option (List Byte) :=
  if addr + n ≤ s.cur.val then some ((List.range n).map fun k => s.fb.read (addr + k)) else none

/-! ### State updates -/

/-- The accepted part of APPEND (R101): copy the chunk at CUR and advance CUR by its length. -/
def State.accept (s : State) (chunk : List Byte) (h : s.cur.val + chunk.length ≤ Config.frameSize) : State :=
  { s with
    fb  := s.fb.writeList s.cur.val chunk
    cur := ⟨s.cur.val + chunk.length, Nat.lt_succ_of_le h⟩ }

/-- The state RESET leaves (R106, R32): every byte of FB 0x00 and CUR = 0. -/
def State.clear (s : State) : State := { s with fb := Memory.clear, cur := 0 }

/-- CUR in the 16 bits of VAL (R82). -/
def State.curVal (s : State) : Half := BitVec.ofNat 16 s.cur.val

/-- `respond(status, value)` and `respond(status, value, payload)` of R13: the one response of a command, put on
the response port. The host has taken the one before (R54, R212; log entry 3). -/
def State.respond (s : State) (opc : Byte) (status : Status) (val : Half) (reading : Option Reading) : State :=
  { s with rspPort := some { opc, status, val, reading } }

end Sys2Proof.Machine
end

