-- ==== Sys2Proof/Machine/Flags.lean ====
section
/-!
DEFINITION. The conditions a reader might expect to be flags: they are computed from the state whenever they are
needed and never stored (10_state.md R23, R27; 40_accumulator.md R100).
-/

namespace Sys2Proof.Machine

/-- `HDR_OK` of R100: FB[0..2] = FE FF 05. Read only when CUR >= 3. -/
def hdrOk (fb : Memory) : Bool := fb.read 0 = 0xFE && fb.read 1 = 0xFF && fb.read 2 = 0x05

/-- `complete` of R23. -/
def State.complete (s : State) : Bool := s.cur.val = Config.frameSize

/-- `empty` of R23. -/
def State.empty (s : State) : Bool := s.cur.val = 0

/-- `outstanding` of R23, in 0..625. -/
def State.outstanding (s : State) : Nat := Config.frameSize - s.cur.val

/-- `hdr_bad` of R27, the condition of the header check inside APPEND (R102). -/
def State.hdrBad (s : State) : Bool := Config.headerLength ≤ s.cur.val && !hdrOk s.fb

end Sys2Proof.Machine
end

