-- ==== Sys2Proof/Machine/Accumulator.lean ====
section
/-!
DEFINITION. The accumulator commands of 40_accumulator.md: APPEND, RESET, IS_COMPLETE, IS_EMPTY, OUTSTANDING and
PEEK. VAL is that of 30_encoding.md R82.
-/

namespace Sys2Proof.Machine

/-- The 16-bit VAL of a truth value (R82). -/
def flagVal (b : Bool) : Half := if b then 1 else 0

/-- APPEND (R101, R102). An empty chunk and a chunk that overflows are rejected with no state change; any other
is copied and kept, also when the header check fails. -/
def execAppend (chunk : List Byte) (s : State) : Host.Outcome State Fault Refusal :=
  if chunk.length = 0 then
    .next (s.respond Opcode.append .errEmpty s.curVal none)
  else if h : s.cur.val + chunk.length ≤ Config.frameSize then
    let t := s.accept chunk h
    .next (t.respond Opcode.append (if t.hdrBad then .errHeader else .ok) t.curVal none)
  else
    .next (s.respond Opcode.append .errOverflow s.curVal none)

/-- RESET (R106). -/
def execReset (s : State) : Host.Outcome State Fault Refusal :=
  .next (s.clear.respond Opcode.reset .ok 0 none)

/-- IS_COMPLETE (R104). -/
def execIsComplete (s : State) : Host.Outcome State Fault Refusal :=
  .next (s.respond Opcode.isComplete .ok (flagVal s.complete) none)

/-- IS_EMPTY (R105). -/
def execIsEmpty (s : State) : Host.Outcome State Fault Refusal :=
  .next (s.respond Opcode.isEmpty .ok (flagVal s.empty) none)

/-- OUTSTANDING (R107). -/
def execOutstanding (s : State) : Host.Outcome State Fault Refusal :=
  .next (s.respond Opcode.outstanding .ok (BitVec.ofNat 16 s.outstanding) none)

/-- PEEK (R108): a live byte zero-extended, ERR_INDEX where there is none. -/
def execPeek (idx : Nat) (s : State) : Host.Outcome State Fault Refusal :=
  match s.liveByte idx with
  | some b => .next (s.respond Opcode.peek .ok (b.setWidth 16) none)
  | none   => .next (s.respond Opcode.peek .errIndex 0 none)

end Sys2Proof.Machine
end

