-- ==== Sys2Proof/Machine/Layout.lean ====
section
/-!
DEFINITION. The frame layout of 20_memory.md: the regions of a LAYOUT and its well-formedness (R48), and the
default LAYOUT_GEM625 (R47, decisions D8 and D9).
-/

namespace Sys2Proof.Config

/-- The regions of the ten data fields as (start, bytes), with the widths and counts of R47. -/
def Layout.regions (L : Layout) : List (Nat × Nat) :=
  [(L.volt, 2), (L.absE, 5 * energyCount), (L.polE, 5 * energyCount), (L.serial, 2), (L.dtype, 1),
   (L.curr, 2 * currentCount), (L.secs, 3), (L.pulse, 3 * pulseCount), (L.temp, 2 * tempCount), (L.stamp, 6)]

/-- A LAYOUT is well-formed when every field lies in 3..621 and no two fields share a byte (R48). -/
abbrev Layout.wf (L : Layout) : Prop :=
  (∀ r ∈ L.regions, headerLength ≤ r.1 ∧ r.1 + r.2 ≤ footerOffset) ∧
  L.regions.Pairwise fun r q => r.1 + r.2 ≤ q.1 ∨ q.1 + q.2 ≤ r.1

/-- LAYOUT_GEM625 (R47). Byte 487 belongs to no field (R49). -/
def layoutGem625 : Layout where
  volt   := 3
  absE   := 5
  polE   := 245
  serial := 485
  dtype  := 488
  curr   := 489
  secs   := 585
  pulse  := 588
  temp   := 600
  stamp  := 616

/-- The LAYOUT the block is built with (R233): the spec's default (R9; log entry 5). -/
def layout : Layout := layoutGem625

end Sys2Proof.Config
end

