-- ==== Sys2Proof/Machine/Operands.lean ====
section
/-!
DEFINITION. The extraction primitives of 42_field_decode.md R151 to R155, over the assembly of multi-byte values
of 00_scope.md R12. Inside DECODE every byte they read is live (R150).
-/

namespace Sys2Proof.Machine

/-- `BE(b0..bk)` of R12: the first byte on the wire is the most significant. -/
def beValue (bs : List Byte) : Nat := bs.foldl (fun v b => v * 256 + b.toNat) 0

/-- `LE(b0..bk)` of R12: the first byte on the wire is the least significant. -/
def leValue : List Byte → Nat
  | [] => 0
  | b :: bs => b.toNat + 256 * leValue bs

/-- `U8(o)` (R151). -/
def u8 (fb : Memory) (o : Nat) : Byte := fb.read o

/-- `U16LE(o)` (R152): the byte at `o+1` above the byte at `o`. -/
def u16le (fb : Memory) (o : Nat) : Half := fb.read (o + 1) ++ fb.read o

/-- `U16BE(o)` (R153). -/
def u16be (fb : Memory) (o : Nat) : Half := fb.read o ++ fb.read (o + 1)

/-- `U24BE(o)` (R154): zero-extended to 32 bits. -/
def u24be (fb : Memory) (o : Nat) : Word :=
  (((0x00 : Byte) ++ fb.read o) ++ fb.read (o + 1)) ++ fb.read (o + 2)

/-- `U40BE(o)` (R155): zero-extended to 64 bits. -/
def u40be (fb : Memory) (o : Nat) : Dword :=
  ((((fb.read o ++ fb.read (o + 1)) ++ fb.read (o + 2)) ++ fb.read (o + 3)) ++ fb.read (o + 4)).setWidth 64

/-- The `n` low bytes of a value, most significant first: the inverse of `beValue` (R176). -/
def beBytes (n v : Nat) : List Byte := (List.range n).map fun k => BitVec.ofNat 8 (v >>> (8 * (n - 1 - k)))

/-- The `n` low bytes of a value, least significant first: the inverse of `leValue` (R176). -/
def leBytes (n v : Nat) : List Byte := (List.range n).map fun k => BitVec.ofNat 8 (v >>> (8 * k))

/-- `for i in 0..n-1: A[i] := f i`, as in R157, R158, R163, R165 and R166. -/
def table {α : Type} (n : Nat) (f : Nat → α) : Vector α n := ⟨((List.range n).map f).toArray, by simp⟩

end Sys2Proof.Machine
end

