-- ==== Sys2Proof/Machine/Extract.lean ====
section
/-!
DEFINITION. Field extraction of 42_field_decode.md: the decimal identifier (R161, R162), the calendar (R168,
R169), and EXTRACT, which builds the Reading (R150, R156 to R167, R170) under any LAYOUT.
-/

namespace Sys2Proof.Machine

/-! ### The device identifier -/

/-- The decimal digits of `v`, most significant first, before the digits `acc`. `fuel` above `v` suffices. -/
def decDigitsAux : Nat → Nat → List Nat → List Nat
  | 0, _, acc => acc
  | fuel + 1, v, acc => if v < 10 then v :: acc else decDigitsAux fuel (v / 10) (v % 10 :: acc)

/-- The decimal digits of `v`, most significant first; `[0]` for 0. -/
def decDigits (v : Nat) : List Nat := decDigitsAux (v + 1) v []

/-- The character of a decimal digit: the byte 0x30 + d (R161). -/
def digitChar (d : Nat) : Byte := BitVec.ofNat 8 (0x30 + d)

/-- `DEC_w(v)` (R161): left-padded with the digit 0 up to at least `w` characters, never truncated. -/
def decFormat (w v : Nat) : List Byte :=
  let ds := decDigits v
  List.replicate (w - ds.length) (digitChar 0) ++ ds.map digitChar

/-- `DEVICE_ID` (R162): the type first, in at least 2 digits, then the serial, in at least 5. -/
def deviceIdOf (dtype : Byte) (serial : Half) : List Byte :=
  decFormat 2 dtype.toNat ++ decFormat 5 serial.toNat

/-! ### The calendar -/

/-- `LEAP(y)` (R169). -/
def leap (y : Nat) : Bool := (y % 4 = 0 && y % 100 ≠ 0) || y % 400 = 0

/-- `DIM(y, m)` (R169) for m in 1..12. R169 gives no value for another month and R168 asks for none: month 0 and
months above 12 fail the test before it. -/
def daysInMonth (y m : Nat) : Nat :=
  match m with
  | 1 | 3 | 5 | 7 | 8 | 10 | 12 => 31
  | 4 | 6 | 9 | 11 => 30
  | 2 => if leap y then 29 else 28
  | _ => 0

/-- `CAL_VALID` (R168), over the six fields of the timestamp, whose year is 2000 + Y (R167). -/
def calValid (t : Timestamp) : Bool :=
  (1 ≤ t.month.toNat && t.month.toNat ≤ 12) &&
  (1 ≤ t.day.toNat && t.day.toNat ≤ daysInMonth t.year.toNat t.month.toNat) &&
  t.hour.toNat ≤ 23 && t.minute.toNat ≤ 59 && t.second.toNat ≤ 59

/-! ### EXTRACT -/

/-- The timestamp bytes (R167), each read as a plain binary number. -/
def extractTimestamp (L : Config.Layout) (fb : Memory) : Timestamp where
  year   := BitVec.ofNat 16 (2000 + (u8 fb L.stamp).toNat)
  month  := u8 fb (L.stamp + 1)
  day    := u8 fb (L.stamp + 2)
  hour   := u8 fb (L.stamp + 3)
  minute := u8 fb (L.stamp + 4)
  second := u8 fb (L.stamp + 5)

/-- `EXTRACT` (R150): the Reading of a frame, total. The fields are R156 (voltage), R157 and R158 (energy), R159
(serial), R160 (type), R162 (identifier), R163 (currents), R164 (seconds), R165 (pulses), R166 (temperatures) and
R167 (timestamp). -/
def extract (L : Config.Layout) (fb : Memory) : Reading where
  voltageRaw     := u16le fb L.volt
  absEnergy      := table _ fun i => u40be fb (L.absE + 5 * i)
  polEnergy      := table _ fun i => u40be fb (L.polE + 5 * i)
  serial         := u16le fb L.serial
  deviceType     := u8 fb L.dtype
  deviceId       := deviceIdOf (u8 fb L.dtype) (u16le fb L.serial)
  currentRaw     := table _ fun i => u16be fb (L.curr + 2 * i)
  elapsedSeconds := u24be fb L.secs
  pulse          := table _ fun i => u24be fb (L.pulse + 3 * i)
  tempRaw        := table _ fun i => u16be fb (L.temp + 2 * i)
  timestamp      := extractTimestamp L fb

/-! ### Scaled quantities (R172): exact rationals of the raw integers -/

/-- `voltage = voltage_raw / 10`. -/
def Reading.voltage (r : Reading) : ℚ := r.voltageRaw.toNat / 10

/-- `current[i] = current_raw[i] / 50`. -/
def Reading.current (r : Reading) (i : Fin 48) : ℚ := r.currentRaw[i].toNat / 50

/-- `temperature[i] = temp_raw[i] / 2`. -/
def Reading.temperature (r : Reading) (i : Fin 8) : ℚ := r.tempRaw[i].toNat / 2

end Sys2Proof.Machine
end

