-- ==== Sys2Proof/Machine/Decoder.lean ====
section
/-!
DEFINITION. DECODE and frame validation (41_validation.md): the checks in their order (R130, R135), the checksum
(R134), and the command itself. DECODE writes no state (R136).
-/

namespace Sys2Proof.Machine

/-- Check 3 (R133): FB[622..623] = FF FE, two bytes in wire order. -/
def ftrOk (fb : Memory) : Bool :=
  fb.read Config.footerOffset = 0xFF && fb.read (Config.footerOffset + 1) = 0xFE

/-- `CKS` (R134): the sum of bytes 0..623 over the naturals, reduced mod 256. -/
def checksum (fb : Memory) : Byte :=
  BitVec.ofNat 8 (((List.range Config.checksumOffset).map fun a => (fb.read a).toNat).sum % 256)

/-- Check 4 (R134). -/
def cksOk (fb : Memory) : Bool := fb.read Config.checksumOffset = checksum fb

/-- Checks 1 to 4 in order (R131 to R135): the status of the first that fails, or OK. -/
def validate (s : State) : Status :=
  if !s.complete then .errIncomplete
  else if !hdrOk s.fb then .errHeader
  else if !ftrOk s.fb then .errFooter
  else if !cksOk s.fb then .errChecksum
  else .ok

/-- DECODE under a LAYOUT (R130): validation, then EXTRACT, then the calendar check, which is the last (R135). -/
def execDecodeWith (L : Config.Layout) (s : State) : Host.Outcome State Fault Refusal :=
  match validate s with
  | .ok =>
    let r := extract L s.fb
    if calValid r.timestamp then .next (s.respond Opcode.decode .ok 0 (some r))
    else .next (s.respond Opcode.decode .errField 0 none)
  | e => .next (s.respond Opcode.decode e 0 none)

/-- DECODE (R130) under the LAYOUT the block is built with. -/
def execDecode (s : State) : Host.Outcome State Fault Refusal := execDecodeWith Config.layout s

end Sys2Proof.Machine
end

