-- ==== Sys2Proof/Machine/Dispatch.lean ====
section
/-!
DEFINITION. The meaning of each command: one arm per constructor of Instr (40_accumulator.md R100).
-/

namespace Sys2Proof.Machine

def exec (i : Instr) (s : State) : Host.Outcome State Fault Refusal :=
  match i with
  | .append chunk => Sys2Proof.Machine.execAppend chunk s
  | .reset => Sys2Proof.Machine.execReset s
  | .isComplete => Sys2Proof.Machine.execIsComplete s
  | .isEmpty => Sys2Proof.Machine.execIsEmpty s
  | .outstanding => Sys2Proof.Machine.execOutstanding s
  | .decode => Sys2Proof.Machine.execDecode s
  | .peek idx => Sys2Proof.Machine.execPeek idx s

end Sys2Proof.Machine
end

