-- ==== Sys2Proof/Machine/Illegal.lean ====
section
/-!
DEFINITION. The answer to an illegal command word (30_encoding.md R77).
-/

namespace Sys2Proof.Machine

/-- An illegal command changes no state; its response carries OPC as received, ERR_ILLEGAL and 0 (R77). -/
def answerIllegal (opc : Byte) (s : State) : Host.Outcome State Fault Refusal :=
  .next (s.respond opc .errIllegal 0 none)

end Sys2Proof.Machine
end

