-- ==== Sys2Proof/Machine/Port.lean ====
section
/-!
DEFINITION. The command port: reading the next command from it, and the host's side of the two ports
(30_encoding.md R76; 60_exceptions.md R208, R212).
-/

namespace Sys2Proof.Machine

/-- What stands at the front of the command port (R76). -/
def State.nextCommand (s : State) : Decoded := decodeCommand s.cmdPort

/-- The block consumes a command's words; `rest` is what comes after them. The host has issued them after it took the
response before (R54, R212), so no response is pending (log entry 3). -/
def State.consume (s : State) (rest : List Word) : State := { s with cmdPort := rest, rspPort := none }

/-! ### The host's moves (R212)

There are two, and neither breaks the last duties of R212: a host issues one command at a time, and only when it has taken
the response to the one before. -/

/-- The host may issue a command: it has issued none that is not answered, and has taken every response. -/
def State.ready (s : State) : Bool := s.cmdPort.isEmpty && s.rspPort.isNone

/-- The words are those of exactly one command, legal or illegal (R76, R80). -/
def oneCommand (ws : List Word) : Bool :=
  match decodeCommand ws with
  | .idle               => false
  | .waiting            => false
  | .command _ rest     => rest.isEmpty
  | .illegal _ _ rest   => rest.isEmpty

/-- The host issues the words of one command (R72, R75). It has no such move while a command or a response is
outstanding, and none that issues two commands at once (R212). -/
def State.issue (s : State) (ws : List Word) : Option State :=
  if s.ready && oneCommand ws then some { s with cmdPort := ws } else none

/-- The host takes the pending response (R212); no move where there is none. -/
def State.takeResponse (s : State) : Option (Rsp × State) :=
  s.rspPort.map fun r => (r, { s with rspPort := none })

/-! ### Placing a command from outside -/

/-- The words put in front of everything on the command port, so that the next step reads them first. This is no move of
the host of R212; `State.withFetchWord` alone uses it (log entry 4). -/
def State.issueFirst (s : State) (ws : List Word) : State := { s with cmdPort := ws ++ s.cmdPort }

end Sys2Proof.Machine
end

