-- ==== Sys2Proof/Machine/Step.lean ====
section
/-!
DEFINITION. One step of the block: perform the command at the front of the command port as one atomic step
(20_memory.md R52, R54; 30_encoding.md R76, R77).
-/

namespace Sys2Proof.Machine

/-- Performs the next command of the port. With no command there, or with its payload not all there, the block is
idle and its state holds unchanged (R211, R241; log entry 1). -/
def step (s : State) : Host.Outcome State Fault Refusal :=
  match s.nextCommand with
  | .idle               => .next s
  | .waiting            => .next s
  | .command i rest     => exec i (s.consume rest)
  | .illegal opc _ rest => answerIllegal opc (s.consume rest)

/-- The command whose bits are `w`, numbered as spec/opcode_table.json numbers them, stands first on the command
port, where `step` reads its next command (log entry 4). -/
def State.withFetchWord (s : State) (nbits w : Nat) : State := s.issueFirst (tableWords nbits w)

end Sys2Proof.Machine
end

