-- ==== Sys2Proof/Machine/Assembler.lean ====
section
/-!
DEFINITION. The assembly syntax of 30_encoding.md R83 and the pseudo-instructions of R84. It carries no semantics
of its own (92_eei_decisions.md D29): a line assembles to commands. Text is a list of characters. What R83 leaves
open of the spelling is fixed in log entry 8.
-/

namespace Sys2Proof.Asm

/-- `<bytes>` of R83: hex byte pairs, or `NAME[a..b]`, the bytes a..b inclusive of a named byte string. -/
inductive Bytes where
  | literal (bs : List Byte)
  | slice (name : List Char) (a b : Nat)
  deriving DecidableEq, Repr

/-- One line of a program (R83, R84). -/
inductive Line where
  | blank
  | append (len : Nat) (bytes : Bytes)
  | peek (idx : Nat)
  | reset
  | isComplete
  | isEmpty
  | outstanding
  | decode
  /-- `.bytes NAME = …`: names a byte string, emits nothing. -/
  | define (name : List Char) (bytes : Bytes)
  /-- `FEED NAME[a..b]` (R84). -/
  | feed (name : List Char) (a b : Nat)
  /-- `DECRST` (R84). -/
  | decrst
  deriving DecidableEq, Repr

/-- The byte strings named so far, the newest first. -/
abbrev Env := List (List Char × List Byte)

/-! ### From lines to commands -/

/-- The bytes an operand stands for; none for an unknown name or a slice outside its byte string. -/
def Bytes.value (env : Env) : Bytes → Option (List Byte)
  | .literal bs => some bs
  | .slice name a b =>
    match env.lookup name with
    | none => none
    | some bs => if a ≤ b ∧ b < bs.length then some ((bs.drop a).take (b - a + 1)) else none

/-- The command, where it has a binary form: an assembler refuses a length or an index above 65535 (R83). -/
def emit (i : Instr) : Option (List Instr) := if i.wellFormed then some [i] else none

/-- `APPEND <len>, <bytes>`: refused when the length is not that of the bytes (R83). -/
def emitAppend (env : Env) (len : Nat) (bytes : Bytes) : Option (List Instr) :=
  match bytes.value env with
  | none => none
  | some bs => if len = bs.length then emit (.append bs) else none

/-- One line: the names known after it and the commands it stands for, or a refusal. -/
def Line.assemble (env : Env) : Line → Option (Env × List Instr)
  | .blank            => some (env, [])
  | .append len bytes => (emitAppend env len bytes).map (env, ·)
  | .peek idx         => (emit (.peek idx)).map (env, ·)
  | .reset            => some (env, [.reset])
  | .isComplete       => some (env, [.isComplete])
  | .isEmpty          => some (env, [.isEmpty])
  | .outstanding      => some (env, [.outstanding])
  | .decode           => some (env, [.decode])
  | .define name e    => (e.value env).map fun bs => ((name, bs) :: env, [])
  | .feed name a b    => (emitAppend env (b - a + 1) (.slice name a b)).map (env, ·)
  | .decrst           => some (env, [.decode, .reset])

/-- The commands of a program, or a refusal if one line is refused. -/
def assemble : Env → List Line → Option (List Instr)
  | _, [] => some []
  | env, l :: ls =>
    match l.assemble env with
    | none => none
    | some (env', is) => (assemble env' ls).map (is ++ ·)

/-! ### From text to lines -/

/-- The tokens of a line. -/
inductive Token where
  | word (cs : List Char)
  | comma
  | open
  | close
  | equals
  | dots
  deriving DecidableEq, Repr

/-- The word collected so far, newest character first, as a token before `ts`. -/
def flush (acc : List Char) (ts : List Token) : List Token :=
  match acc with
  | [] => ts
  | _ => .word acc.reverse :: ts

/-- The tokens of a line; `;` starts a comment (R83). -/
def tokens : List Char → List Char → List Token
  | acc, [] => flush acc []
  | acc, ';' :: _ => flush acc []
  | acc, '.' :: '.' :: cs => flush acc (.dots :: tokens [] cs)
  | acc, c :: cs =>
    if c = ' ' ∨ c = '\t' ∨ c = '\r' then flush acc (tokens [] cs)
    else if c = ',' then flush acc (.comma :: tokens [] cs)
    else if c = '[' then flush acc (.open :: tokens [] cs)
    else if c = ']' then flush acc (.close :: tokens [] cs)
    else if c = '=' then flush acc (.equals :: tokens [] cs)
    else tokens (c :: acc) cs

/-- The value of a digit of base 16 or less. -/
def digitValue (c : Char) : Option Nat :=
  let n := c.toNat
  if 48 ≤ n ∧ n ≤ 57 then some (n - 48)
  else if 65 ≤ n ∧ n ≤ 70 then some (n - 55)
  else if 97 ≤ n ∧ n ≤ 102 then some (n - 87)
  else none

/-- The digits in a base, after the value read so far. -/
def digitsValue (base : Nat) : Nat → List Char → Option Nat
  | v, [] => some v
  | v, c :: cs =>
    match digitValue c with
    | none => none
    | some d => if d < base then digitsValue base (v * base + d) cs else none

/-- A number: decimal or 0x-hex (R83). -/
def number : List Char → Option Nat
  | [] => none
  | '0' :: 'x' :: c :: cs => digitsValue 16 0 (c :: cs)
  | c :: cs => digitsValue 10 0 (c :: cs)

/-- A hex byte pair (R83). -/
def bytePair : List Char → Option Byte
  | [c, d] => (digitsValue 16 0 [c, d]).map (BitVec.ofNat 8)
  | _ => none

/-- Hex byte pairs separated by commas (R83). -/
def byteList : List Token → Option (List Byte)
  | [.word cs] => (bytePair cs).map ([·])
  | .word cs :: .comma :: ts =>
    match bytePair cs, byteList ts with
    | some b, some bs => some (b :: bs)
    | _, _ => none
  | _ => none

/-- `NAME[a..b]` (R83). -/
def sliceOf : List Token → Option (List Char × Nat × Nat)
  | [.word name, .open, .word a, .dots, .word b, .close] =>
    match number a, number b with
    | some a, some b => some (name, a, b)
    | _, _ => none
  | _ => none

/-- `<bytes>`: nothing spells the empty chunk (R83). -/
def bytesOf (ts : List Token) : Option Bytes :=
  match ts with
  | [] => some (.literal [])
  | _ =>
    match sliceOf ts with
    | some (name, a, b) => some (.slice name a b)
    | none => (byteList ts).map .literal

/-- A line with one mnemonic and no operand (R83, R84). -/
def bareLine (cs : List Char) : Option Line :=
  if cs = "RESET".toList then some .reset
  else if cs = "IS_COMPLETE".toList then some .isComplete
  else if cs = "IS_EMPTY".toList then some .isEmpty
  else if cs = "OUTSTANDING".toList then some .outstanding
  else if cs = "DECODE".toList then some .decode
  else if cs = "DECRST".toList then some .decrst
  else none

/-- One line of text (R83, R84), or a refusal. -/
def lineOf (text : List Char) : Option Line :=
  match tokens [] text with
  | [] => some .blank
  | [.word m] => bareLine m
  | .word m :: .word n :: ts =>
    if m = "APPEND".toList then
      match number n, ts with
      | some len, .comma :: us => (bytesOf us).map (.append len)
      | _, _ => none
    else if m = "PEEK".toList then
      if ts = [] then (number n).map .peek else none
    else if m = ".bytes".toList then
      match ts with
      | .equals :: us => if us = [] then none else (bytesOf us).map (.define n)
      | _ => none
    else if m = "FEED".toList then
      (sliceOf (.word n :: ts)).map fun r => .feed r.1 r.2.1 r.2.2
    else none
  | _ => none

/-- A program text, one command a line (R83): its commands, or a refusal. -/
def program (lines : List (List Char)) : Option (List Instr) :=
  (lines.mapM lineOf).bind (assemble [])

/-- The words a program puts on the command port. -/
def words (is : List Instr) : List Word := is.flatMap encode

end Sys2Proof.Asm
end

