-- ==== Sys2Proof/Machine/Run.lean ====
section
/-!
DEFINITION. A run of one instance (60_exceptions.md R214): a finite list of commands, the list of their responses,
and the final state; and the same at the binary level: exchanges of a host that meets R212, and steps on the words that
come to the command port.
-/

namespace Sys2Proof.Machine

/-- The state a command leaves. `exec` always answers a next state (R100), so the other cases never arise. -/
def perform (i : Instr) (s : State) : State :=
  match exec i s with
  | .next t    => t
  | .fault f   => nomatch f
  | .refused _ => s

/-- The run of a list of commands: the responses in command order, and the final state (R54, R214). -/
def runCommands : List Instr → State → List Rsp × State
  | [], s => ([], s)
  | i :: is, s =>
    let t := perform i s
    let r := runCommands is t
    (t.rspPort.toList ++ r.1, r.2)

/-- The result of a run (R214): the responses, and the final FB and CUR with stale bytes given no value. -/
def runResult (is : List Instr) (s : State) : List Rsp × Cursor × List Byte :=
  let r := runCommands is s
  (r.1, r.2.cur, r.2.live)

/-- The state a step leaves. `step` always answers a next state (R100), so the other cases never arise. -/
def advance (s : State) : State :=
  match step s with
  | .next t    => t
  | .fault f   => nomatch f
  | .refused _ => s

/-- One exchange of the host of R212: it issues the words of one command, the block performs it, and the host takes the
response. None where the host may not issue them. -/
def hostExchange (ws : List Word) (s : State) : Option (Rsp × State) :=
  (s.issue ws).bind fun t => (advance t).takeResponse

/-- A session of the host of R212: one exchange for each command, in order, with the responses it took. None where one
exchange is not allowed. -/
def hostSession : List Instr → State → Option (List Rsp × State)
  | [], s => some ([], s)
  | i :: is, s =>
    match hostExchange i.portWords s with
    | none        => none
    | some (r, t) => (hostSession is t).map fun q => (r :: q.1, q.2)

/-- `n` steps of the block on the words that come to its command port, where the host takes the response of each step
before the next command's words come (R54, R212): the responses taken, and the final state. -/
def runSteps : Nat → State → List Rsp × State
  | 0, s => ([], s)
  | n + 1, s =>
    match (advance s).takeResponse with
    | none        => runSteps n (advance s)
    | some (r, t) => (r :: (runSteps n t).1, (runSteps n t).2)

end Sys2Proof.Machine
end

