-- ==== Sys2Proof/Machine/Driver.lean ====
section
/-!
DEFINITION. The reference host of 60_exceptions.md R213: the source's Driver as a sequence of the block's
commands. It is not part of the block (00_scope.md R6) and no meaning calls it; it is written down because claims
about a host that meets R212 are stated of it.
-/

namespace Sys2Proof.Machine

/-- One connection's driver: the block it drives, its own latch and count of bad events (R213), and the commands
it has issued so far, in order. -/
structure Driver where
  block       : State
  failedLatch : Bool
  badEvents   : Nat
  issued      : List Instr
  deriving DecidableEq, Repr

/-- A driver at the creation of its connection. R213 gives its latch no initial value: it starts clear, so the first
failure of a connection is notified (DESIGN CHOICE, log entry 9). -/
def Driver.start : Driver where
  block       := State.reset
  failedLatch := false
  badEvents   := 0
  issued      := []

/-- Issues one command and waits for its response. -/
def Driver.send (d : Driver) (i : Instr) : Driver :=
  { d with block := perform i d.block, issued := d.issued ++ [i] }

/-- The pending response is OK. -/
def Driver.answeredOk (d : Driver) : Bool := d.block.rspPort.any fun r => r.status = .ok

/-- The pending response's VAL is 1. -/
def Driver.answeredTrue (d : Driver) : Bool := d.block.rspPort.any fun r => r.val = 1

/-- The Reading of the pending response. -/
def Driver.answeredReading (d : Driver) : Option Reading := d.block.rspPort.bind Rsp.reading

/-- `bad_event()` of R213: once per contiguous failure run. -/
def Driver.badEvent (d : Driver) : Driver :=
  if d.failedLatch then d else { d with failedLatch := true, badEvents := d.badEvents + 1 }

/-- `on_bytes_received(chunk)` of R213, with the Reading it returns. -/
def Driver.onBytesReceived (chunk : List Byte) (d : Driver) : Driver × Option Reading :=
  let a := d.send (.append chunk)
  if !a.answeredOk then ((a.send .reset).badEvent, none)
  else
    let c := { a with failedLatch := false }.send .isComplete
    if !c.answeredTrue then (c, none)
    else
      let r := c.send .decode
      let z := r.send .reset
      if r.answeredOk then (z, r.answeredReading) else (z.badEvent, none)

/-- `on_connection_closed()` of R213: a premature disconnect is IS_EMPTY = 0 at close (R215). -/
def Driver.onConnectionClosed (d : Driver) : Driver :=
  let e := d.send .isEmpty
  if e.answeredTrue then e else e.badEvent

/-- The chunks of a connection in the order they arrive, with the Readings returned, in order. -/
def Driver.feed : List (List Byte) → Driver → Driver × List Reading
  | [], d => (d, [])
  | c :: cs, d =>
    let a := d.onBytesReceived c
    let r := Driver.feed cs a.1
    (r.1, a.2.toList ++ r.2)

end Sys2Proof.Machine
end

