-- ==== Sys2Proof/Machine/Response.lean ====
section
/-!
DEFINITION. The binary response (30_encoding.md R80 to R82), the classes of failure (41_validation.md R141), and the
Reading payload (42_field_decode.md R171).
-/

namespace Sys2Proof.Machine

/-- The status codes of R81. Codes 0x0A..0xFF are never produced. -/
def Status.code : Status → Byte
  | .ok            => 0x00
  | .errEmpty      => 0x01
  | .errOverflow   => 0x02
  | .errHeader     => 0x03
  | .errIncomplete => 0x04
  | .errFooter     => 0x05
  | .errChecksum   => 0x06
  | .errField      => 0x07
  | .errIndex      => 0x08
  | .errIllegal    => 0x09

/-- The source's classes of failure (R81, R141). -/
inductive FailureClass where
  /-- (a) An empty chunk, or one that overflows. -/
  | chunk
  /-- (b) Header mismatch. -/
  | header
  /-- (c) Structural mismatch: footer or checksum. -/
  | structural
  /-- (d) Field decode failure. -/
  | field
  /-- (e) Premature disconnect: the host's own judgement with IS_EMPTY, of no status code (R81, R215). -/
  | disconnect
  deriving DecidableEq, Repr

/-- The class of a status (R81, R141); none for OK, for validation step 1, and for the spec's own ERR_INDEX and
ERR_ILLEGAL. -/
def Status.failureClass : Status → Option FailureClass
  | .ok            => none
  | .errEmpty      => some .chunk
  | .errOverflow   => some .chunk
  | .errHeader     => some .header
  | .errIncomplete => none
  | .errFooter     => some .structural
  | .errChecksum   => some .structural
  | .errField      => some .field
  | .errIndex      => none
  | .errIllegal    => none

/-- The source's boolean of a response (R81): `STATUS = OK`. -/
def Rsp.succeeded (r : Rsp) : Bool := r.status = .ok

/-- `ID_ASCII` (R171): character k of the identifier at bits [63-8k : 56-8k], and 0x00 after the last. -/
def asciiValue (cs : List Byte) : Dword :=
  (List.range 8).foldl (fun v k => (v <<< 8) ||| (cs.getD k 0x00).setWidth 64) 0

/-- The 168 values of R171, each zero-extended to 64 bits. -/
def Reading.values (r : Reading) : List Dword :=
  [r.voltageRaw.setWidth 64] ++ r.absEnergy.toList ++ r.polEnergy.toList ++
  [r.serial.setWidth 64, r.deviceType.setWidth 64, BitVec.ofNat 64 r.deviceId.length, asciiValue r.deviceId] ++
  r.currentRaw.toList.map (·.setWidth 64) ++ [r.elapsedSeconds.setWidth 64] ++
  r.pulse.toList.map (·.setWidth 64) ++ r.tempRaw.toList.map (·.setWidth 64) ++
  [r.timestamp.year.setWidth 64, r.timestamp.month.setWidth 64, r.timestamp.day.setWidth 64,
   r.timestamp.hour.setWidth 64, r.timestamp.minute.setWidth 64, r.timestamp.second.setWidth 64]

/-- One payload value as two words, first v[63:32] and then v[31:0] (R171). -/
def valueWords (v : Dword) : List Word := [v.extractLsb' 32 32, v.extractLsb' 0 32]

/-- The 336-word Reading payload (R171). -/
def Reading.words (r : Reading) : List Word := r.values.flatMap valueWords

/-- The response word `ROPC ++ STATUS ++ VAL` (R80). -/
def Rsp.head (r : Rsp) : Word := r.opc ++ (r.status.code ++ r.val)

/-- All words of a response: the response word, and the payload where there is a Reading (R80). -/
def Rsp.words (r : Rsp) : List Word :=
  r.head :: match r.reading with
    | none    => []
    | some rd => rd.words

/-- The words on the response port. -/
def State.rspWords (s : State) : List Word :=
  match s.rspPort with
  | none   => []
  | some r => r.words

end Sys2Proof.Machine
end

