-- ==== Sys2Proof/Machine/System.lean ====
section
/-!
DEFINITION. Several instances side by side (10_state.md R33; 60_exceptions.md R209): one per connection, each with
its own FB, CUR and port pair, created at the reset state and discarded at close. They share nothing. The
connection numbers belong to the system around the blocks: there is no identifier inside one (R209).
-/

namespace Sys2Proof.Machine

/-- The open connections, each with the state of its block. -/
abbrev System := List (Nat × State)

/-- The block of a connection, if the connection is open: the newest one of that number. -/
def System.find : System → Nat → Option State
  | [], _ => none
  | (k, s) :: sys, c => if k = c then some s else System.find sys c

/-- A connection is accepted: its block starts at the reset values (R209, R32). -/
def System.accept (sys : System) (c : Nat) : System := (c, State.reset) :: sys.filter fun e => e.1 ≠ c

/-- A connection closes: its block is discarded, a partial frame with it (R209, R215). -/
def System.close (sys : System) (c : Nat) : System := sys.filter fun e => e.1 ≠ c

/-- A command to the block of one connection (R54, R55). -/
def System.command (sys : System) (c : Nat) (i : Instr) : System :=
  sys.map fun e => if e.1 = c then (e.1, perform i e.2) else e

end Sys2Proof.Machine
end

