-- ==== Sys2Proof/Safety.lean ====
section
/-!
DEFINITION. The terms claims use: the invariant of every step, what a response and a Reading may be
(30_encoding.md R81; 42_field_decode.md R170), states that agree on everything but stale bytes (10_state.md R24),
and the host's duty of 70_reset_and_hazards.md R234.
-/

namespace Sys2Proof.Machine

/-! ### Legal responses and the invariant -/

/-- The statuses the command of an opcode can answer (R81, R200). An illegal word answers ERR_ILLEGAL whatever its
OPC (R77). -/
def statusAllowed (opc : Byte) : Status → Bool
  | .ok            => 0x01 ≤ opc.toNat && opc.toNat ≤ 0x07
  | .errEmpty      => opc = Opcode.append
  | .errOverflow   => opc = Opcode.append
  | .errHeader     => opc = Opcode.append || opc = Opcode.decode
  | .errIncomplete => opc = Opcode.decode
  | .errFooter     => opc = Opcode.decode
  | .errChecksum   => opc = Opcode.decode
  | .errField      => opc = Opcode.decode
  | .errIndex      => opc = Opcode.peek
  | .errIllegal    => true

/-- What R170 says of a Reading: the ranges of its fields, the identifier's form, and CAL_VALID of its timestamp. -/
structure Reading.Legal (r : Reading) : Prop where
  abs_lt    : ∀ i : Fin 48, r.absEnergy[i].toNat < 2 ^ 40
  pol_lt    : ∀ i : Fin 48, r.polEnergy[i].toNat < 2 ^ 40
  secs_lt   : r.elapsedSeconds.toNat < 2 ^ 24
  pulse_lt  : ∀ i : Fin 4, r.pulse[i].toNat < 2 ^ 24
  id_length : r.deviceId.length = 7 ∨ r.deviceId.length = 8
  id_digits : ∀ c ∈ r.deviceId, 0x30 ≤ c.toNat ∧ c.toNat ≤ 0x39
  year      : 2000 ≤ r.timestamp.year.toNat ∧ r.timestamp.year.toNat ≤ 2255
  date      : calValid r.timestamp = true

/-- What the spec says of every response: its status is one its command can answer (R81, R200), a Reading is there
exactly for DECODE with OK (R80), then with VAL 0 (R82) and legal (R170). -/
structure Rsp.Legal (r : Rsp) : Prop where
  status_allowed : statusAllowed r.opc r.status = true
  reading_iff    : r.reading.isSome = true ↔ r.opc = Opcode.decode ∧ r.status = .ok
  reading_legal  : ∀ rd, r.reading = some rd → r.val = 0 ∧ rd.Legal

/-- The invariant of every step: FB is in canonical form and the pending response, if any, is legal. -/
structure State.Inv (s : State) : Prop where
  fb_wf     : s.fb.wf
  rsp_legal : ∀ r, s.rspPort = some r → r.Legal

/-! ### Stale bytes -/

/-- Two states that agree on everything but their stale bytes (R24). -/
structure SameButStale (s t : State) : Prop where
  cur  : s.cur = t.cur
  live : ∀ a, a < s.cur.val → s.fb.read a = t.fb.read a
  cmd  : s.cmdPort = t.cmdPort
  rsp  : s.rspPort = t.rspPort

/-! ### The duty to RESET between frames (R234) -/

/-- The command ended a frame, completed or discarded (R234): DECODE answered, or APPEND returned ERR_OVERFLOW or
ERR_HEADER. R234 also counts a frame the host abandons as discarded; no command shows that, so it ends no frame here and
raises no duty (DESIGN CHOICE, log entry 12). -/
def frameOver (i : Instr) (t : State) : Bool :=
  match i with
  | .decode   => true
  | .append _ => t.rspPort.any fun r => r.status = .errOverflow || r.status = .errHeader
  | _         => false

/-- A frame is over and no RESET has come since, after one more command. -/
def overAfter (due : Bool) (i : Instr) (t : State) : Bool :=
  match i with
  | .reset => false
  | _      => due || frameOver i t

/-- The same after a list of commands. -/
def overAfterAll : Bool → List Instr → State → Bool
  | due, [], _ => due
  | due, i :: is, s => overAfterAll (overAfter due i (perform i s)) is (perform i s)

/-- The host meets the duty of R234 as far as its commands and their responses show it: no APPEND while a frame is over.
An abandoned frame is not seen (DESIGN CHOICE, log entry 12). -/
def dutiful : Bool → List Instr → State → Bool
  | _, [], _ => true
  | due, i :: is, s =>
    (match i with
      | .append _ => !due
      | _         => true) &&
    dutiful (overAfter due i (perform i s)) is (perform i s)

/-- The bytes the host has sent since its last RESET, after `acc`. -/
def sentSinceReset : List Byte → List Instr → List Byte
  | acc, [] => acc
  | acc, .append c :: is => sentSinceReset (acc ++ c) is
  | _, .reset :: is => sentSinceReset [] is
  | acc, _ :: is => sentSinceReset acc is

/-- What the reference host of R213 keeps between chunks: its block is in the state of the commands it has issued, it has
met the duty of R234, no frame is over or complete, and no header failure stands. `issued` is the model's own record (log
entry 9). -/
structure Driver.Inv (d : Driver) : Prop where
  block_eq : d.block = (runCommands d.issued State.reset).2
  dutiful  : dutiful false d.issued State.reset = true
  not_over : overAfterAll false d.issued State.reset = false
  cur_lt   : d.block.cur.val < 625
  hdr_good : d.block.hdrBad = false

end Sys2Proof.Machine
end

