-- ==== Sys2Proof/Certificates/Slice0/Obligations.lean ====
section
/-!
DEFINITION. The statements for the provers. Each docstring says which rules of spec/ it formalises.
-/

open Sys2Proof Sys2Proof.Machine

/-! ### Encoding -/

/-- R72 to R75, R79: the binary form of every command that has one decodes to that command, and to nothing of the
words after it. -/
def Obligations.EncodedCommandDecodesBack : Prop :=
  ∀ (i : Instr) (rest : List Word), i.wellFormed = true →
    decodeCommand (encode i ++ rest) = .command i rest

/-- R75: chunk byte k of an APPEND is at bits [31-8(k mod 4) : 24-8(k mod 4)] of payload word k div 4; nothing else of
the ceil(LEN/4) payload words has an effect, and they are consumed. -/
def Obligations.PayloadCarriesChunkBytes : Prop :=
  ∀ (w : Word) (p rest : List Word), w.extractLsb' 24 8 = 0x01#8 → w.extractLsb' 16 8 = 0x00#8 →
    p.length = ((w.extractLsb' 0 16).toNat + 3) / 4 →
    ∃ chunk : List Byte,
      decodeCommand (w :: (p ++ rest)) = .command (.append chunk) rest ∧
      chunk.length = (w.extractLsb' 0 16).toNat ∧
      ∀ k, k < (w.extractLsb' 0 16).toNat →
        chunk[k]? = p[k / 4]?.map fun v => v.extractLsb' (24 - 8 * (k % 4)) 8

/-- R74 with R73: what each opcode stands for when RSV is 0x00, with IMM as LEN or IDX, and that every other opcode is
illegal. -/
def Obligations.OpcodeMapDecodes : Prop :=
  ∀ (w : Word) (ws : List Word), w.extractLsb' 16 8 = 0x00#8 →
    (w.extractLsb' 24 8 = 0x01#8 → ((w.extractLsb' 0 16).toNat + 3) / 4 ≤ ws.length →
      ∃ chunk : List Byte, chunk.length = (w.extractLsb' 0 16).toNat ∧
        decodeCommand (w :: ws) = .command (.append chunk) (ws.drop (((w.extractLsb' 0 16).toNat + 3) / 4))) ∧
    (w.extractLsb' 0 16 = 0x0000#16 →
      (w.extractLsb' 24 8 = 0x02#8 → decodeCommand (w :: ws) = .command .reset ws) ∧
      (w.extractLsb' 24 8 = 0x03#8 → decodeCommand (w :: ws) = .command .isComplete ws) ∧
      (w.extractLsb' 24 8 = 0x04#8 → decodeCommand (w :: ws) = .command .isEmpty ws) ∧
      (w.extractLsb' 24 8 = 0x05#8 → decodeCommand (w :: ws) = .command .outstanding ws) ∧
      (w.extractLsb' 24 8 = 0x06#8 → decodeCommand (w :: ws) = .command .decode ws)) ∧
    (w.extractLsb' 24 8 = 0x07#8 →
      decodeCommand (w :: ws) = .command (.peek (w.extractLsb' 0 16).toNat) ws) ∧
    (w.extractLsb' 24 8 = 0x00#8 ∨ 0x08 ≤ (w.extractLsb' 24 8).toNat →
      decodeCommand (w :: ws) = .illegal (w.extractLsb' 24 8) .opcode ws)

/-- R77: exactly the words that fail test (a), (b) or (c), in that order, are illegal; one is answered ERR_ILLEGAL
under its OPC as received, its payload is drained, and nothing else changes. -/
def Obligations.IllegalWordsAnswered : Prop :=
  ∀ (s : State) (w : Word) (ws : List Word), s.cmdPort = w :: ws →
    let opc := w.extractLsb' 24 8
    let need := if opc = 0x01#8 then ((w.extractLsb' 0 16).toNat + 3) / 4 else 0
    need ≤ ws.length →
    let a := opc.toNat < 0x01 ∨ 0x07 < opc.toNat
    let b := w.extractLsb' 16 8 ≠ 0x00#8
    let c := 0x02 ≤ opc.toNat ∧ opc.toNat ≤ 0x06 ∧ w.extractLsb' 0 16 ≠ 0x0000#16
    (a ∨ b ∨ c →
      decodeCommand s.cmdPort =
        .illegal opc (if a then .opcode else if b then .reserved else .operand) (ws.drop need) ∧
      step s = .next { s with cmdPort := ws.drop need, rspPort := some ⟨opc, .errIllegal, 0, none⟩ }) ∧
    (¬ (a ∨ b ∨ c) →
      ∃ i, decodeCommand s.cmdPort = .command i (ws.drop need) ∧ i.opcode = opc ∧ i.wellFormed = true)

/-- R83, R84 and the vectors V-E1 to V-E12 of 95_test_vectors.md: command words written out from the spec's tables
decode to the commands they stand for. A sanity statement. -/
def Obligations.SpecWordsDecode : Prop :=
  decodeCommand [0x01000003, 0xFEFF05AA] = .command (.append [0xFE, 0xFF, 0x05]) [] ∧
  decodeCommand [0x02000000] = .command .reset [] ∧
  decodeCommand [0x03000000] = .command .isComplete [] ∧
  decodeCommand [0x04000000] = .command .isEmpty [] ∧
  decodeCommand [0x05000000] = .command .outstanding [] ∧
  decodeCommand [0x06000000] = .command .decode [] ∧
  decodeCommand [0x07000002] = .command (.peek 2) [] ∧
  decodeCommand [0x02000001] = .illegal 0x02 .operand [] ∧
  decodeCommand [0x01010005, 0x11223344, 0x55000000] = .illegal 0x01 .reserved []

/-- R80: every command with all its words on the port, legal or illegal, is answered by exactly one response, under
its OPC as received; the response word has ROPC, STATUS and VAL in their places; and only a DECODE response with OK
has more words, 336 of them. -/
def Obligations.EveryCommandAnsweredOnce : Prop :=
  (∀ (s : State) (w : Word) (ws : List Word), s.cmdPort = w :: ws →
    let need := if w.extractLsb' 24 8 = 0x01#8 then ((w.extractLsb' 0 16).toNat + 3) / 4 else 0
    need ≤ ws.length →
    ∃ t r, step s = .next t ∧ t.cmdPort = ws.drop need ∧ t.rspPort = some r ∧ r.opc = w.extractLsb' 24 8 ∧
      (r.reading.isSome = true ↔ r.opc = 0x06#8 ∧ r.status = .ok)) ∧
  (∀ r : Rsp, ∃ h ps, r.words = h :: ps ∧
    h.extractLsb' 24 8 = r.opc ∧ h.extractLsb' 16 8 = r.status.code ∧ h.extractLsb' 0 16 = r.val ∧
    ps.length = if r.reading.isSome = true then 336 else 0)

/-- R81: the numbers of the status codes; no code above 0x09 is ever produced. -/
def Obligations.StatusCodeNumbers : Prop :=
  (Status.ok.code = 0x00 ∧ Status.errEmpty.code = 0x01 ∧ Status.errOverflow.code = 0x02 ∧
    Status.errHeader.code = 0x03 ∧ Status.errIncomplete.code = 0x04 ∧ Status.errFooter.code = 0x05 ∧
    Status.errChecksum.code = 0x06 ∧ Status.errField.code = 0x07 ∧ Status.errIndex.code = 0x08 ∧
    Status.errIllegal.code = 0x09) ∧
  ∀ st : Status, st.code.toNat ≤ 0x09

/-- R171: a response with a Reading is its response word and then 168 values in the order of the table, each
zero-extended to 64 bits and sent high word first. -/
def Obligations.ReadingPayloadOrder : Prop :=
  ∀ r : Reading,
    (∀ p : Rsp, p.reading = some r → p.words = p.head :: r.words) ∧
    r.values.length = 168 ∧ r.words.length = 336 ∧
    (∀ j v, r.values[j]? = some v →
      r.words[2 * j]? = some (v.extractLsb' 32 32) ∧ r.words[2 * j + 1]? = some (v.extractLsb' 0 32)) ∧
    r.values[0]? = some (r.voltageRaw.setWidth 64) ∧
    (∀ i : Fin 48, r.values[1 + i.val]? = some r.absEnergy[i]) ∧
    (∀ i : Fin 48, r.values[49 + i.val]? = some r.polEnergy[i]) ∧
    r.values[97]? = some (r.serial.setWidth 64) ∧
    r.values[98]? = some (r.deviceType.setWidth 64) ∧
    r.values[99]? = some (BitVec.ofNat 64 r.deviceId.length) ∧
    (∃ v, r.values[100]? = some v ∧ ∀ k, k < 8 → v.extractLsb' (56 - 8 * k) 8 = r.deviceId.getD k 0x00) ∧
    (∀ i : Fin 48, r.values[101 + i.val]? = some (r.currentRaw[i].setWidth 64)) ∧
    r.values[149]? = some (r.elapsedSeconds.setWidth 64) ∧
    (∀ i : Fin 4, r.values[150 + i.val]? = some (r.pulse[i].setWidth 64)) ∧
    (∀ i : Fin 8, r.values[154 + i.val]? = some (r.tempRaw[i].setWidth 64)) ∧
    r.values[162]? = some (r.timestamp.year.setWidth 64) ∧
    r.values[163]? = some (r.timestamp.month.setWidth 64) ∧
    r.values[164]? = some (r.timestamp.day.setWidth 64) ∧
    r.values[165]? = some (r.timestamp.hour.setWidth 64) ∧
    r.values[166]? = some (r.timestamp.minute.setWidth 64) ∧
    r.values[167]? = some (r.timestamp.second.setWidth 64)

/-! ### The step -/

/-- R70, R76, R54: a step with a whole legal command at the front of the port is that command's meaning, on the state
with the command's words consumed and the response before taken by the host (R212; log entry 3). -/
def Obligations.StepPerformsDecodedCommand : Prop :=
  ∀ (s : State) (i : Instr) (rest : List Word), decodeCommand s.cmdPort = .command i rest →
    step s = exec i { s with cmdPort := rest, rspPort := none }

/-- R211, R241 and the model's own choice (log entry 1): with no command on the port, or with an APPEND whose payload
has not all arrived, a step changes nothing. -/
def Obligations.IncompleteCommandWaits : Prop :=
  ∀ s : State,
    (s.cmdPort = [] ∨
      ∃ w ws, s.cmdPort = w :: ws ∧ w.extractLsb' 24 8 = 0x01#8 ∧
        ws.length < ((w.extractLsb' 0 16).toNat + 3) / 4) →
    step s = .next s

/-- R100: the step is total: every command answers a response and a next state, and no step faults or refuses. -/
def Obligations.StepIsTotal : Prop :=
  (∀ (i : Instr) (s : State), ∃ t r, exec i s = .next t ∧ t.rspPort = some r ∧ r.opc = i.opcode) ∧
  ∀ s : State, ∃ t, step s = .next t

/-- R70, R54, R79: the binary level refines the abstract level. The host of R212 has taken every response so far, and
takes the response of each step before the next command's words come. Then the steps on the words of any list of
commands that have a binary form give the responses of the abstract run, in order, and leave its state, whatever words
come after them. (That the port holds the words to come is the model's choice, log entry 1.) -/
def Obligations.PortStepsRefineAbstractRun : Prop :=
  ∀ (is : List Instr) (s : State) (rest : List Word), (∀ i ∈ is, i.wellFormed = true) → s.rspPort = none →
    s.cmdPort = is.flatMap encode ++ rest →
    runSteps is.length s =
      ((runCommands is s).1, { (runCommands is s).2 with cmdPort := rest, rspPort := none })

/-- R54, R79, R212, R240: a host with nothing outstanding gets, for any command, in one step the response of that
command's meaning, and both ports are empty again; also for a command with no binary form, by the one it sends instead
(log entry 11). -/
def Obligations.HostExchangePerformsCommand : Prop :=
  ∀ (i : Instr) (s : State), s.cmdPort = [] → s.rspPort = none →
    ∃ t r, exec i s = .next t ∧ t.rspPort = some r ∧ t.cmdPort = [] ∧
      hostExchange i.portWords s = some (r, { t with rspPort := none })

/-- R212, R237: the host waits. It can issue words only while nothing is outstanding on either port; once it has, it
can issue no more until the block has performed that one command and the host has taken its response, and then both
ports are empty. Words after those of one command are never issued with it. -/
def Obligations.HostWaitsForEachResponse : Prop :=
  (∀ (s t : State) (ws : List Word), s.issue ws = some t →
    s.cmdPort = [] ∧ s.rspPort = none ∧ t = { s with cmdPort := ws } ∧ (∀ vs, t.issue vs = none) ∧
    ∃ u r, step t = .next u ∧ u.cmdPort = [] ∧ u.rspPort = some r ∧ (∀ vs, u.issue vs = none) ∧
      u.takeResponse = some (r, { u with rspPort := none })) ∧
  ∀ (s : State) (i : Instr) (w : Word) (ws : List Word), s.issue (i.portWords ++ w :: ws) = none

/-- R54, R70, R79, R212, R214: the session of a host that waits for and takes each response before its next command is
always allowed, for every list of commands, and gives the responses and the final state of the abstract run. -/
def Obligations.HostSessionRefinesAbstractRun : Prop :=
  ∀ (is : List Instr) (s : State), s.cmdPort = [] → s.rspPort = none →
    hostSession is s = some ((runCommands is s).1, { (runCommands is s).2 with rspPort := none })

/-- The invariant of the machine (R20 to R22, R40, R80, R81, R170): from every state that meets it, a step leaves one
that meets it. -/
def Obligations.StepKeepsInvariant : Prop :=
  ∀ s t : State, s.Inv → step s = .next t → t.Inv

/-- The reset state meets the invariant. -/
def Obligations.ResetMeetsInvariant : Prop := State.reset.Inv

/-- R32, R230 (decision D14 of the spec): what power-on reset leaves, and that a RESET command leaves the same FB and
CUR from every state. -/
def Obligations.PowerOnEqualsReset : Prop :=
  State.reset.cur.val = 0 ∧ (∀ a, a < 625 → State.reset.fb.read a = 0x00) ∧ State.reset.rspPort = none ∧
  ∀ s : State, ∃ t, exec .reset s = .next t ∧ t.fb = State.reset.fb ∧ t.cur = State.reset.cur

/-! ### The accumulator commands -/

/-- R101, R102, R103: APPEND. An empty chunk and a chunk that overflows change nothing but the response; any other is
copied to FB[CUR..CUR+len-1], advances CUR, and is answered ERR_HEADER exactly when three bytes are there and are not
FE FF 05. Every other byte, and the command port, keep their values. -/
def Obligations.AppendEffect : Prop :=
  ∀ (s : State) (c : List Byte),
    (c = [] → exec (.append c) s =
      .next { s with rspPort := some ⟨0x01, .errEmpty, BitVec.ofNat 16 s.cur.val, none⟩ }) ∧
    (625 < s.cur.val + c.length → exec (.append c) s =
      .next { s with rspPort := some ⟨0x01, .errOverflow, BitVec.ofNat 16 s.cur.val, none⟩ }) ∧
    (c ≠ [] → s.cur.val + c.length ≤ 625 →
      ∃ t, exec (.append c) s = .next t ∧
        t.cur.val = s.cur.val + c.length ∧
        (∀ k b, (c)[k]? = some b → t.fb.read (s.cur.val + k) = b) ∧
        (∀ a, a < s.cur.val ∨ s.cur.val + c.length ≤ a → t.fb.read a = s.fb.read a) ∧
        t.cmdPort = s.cmdPort ∧
        t.rspPort = some ⟨0x01,
          if 3 ≤ s.cur.val + c.length ∧
            ¬ (t.fb.read 0 = 0xFE#8 ∧ t.fb.read 1 = 0xFF#8 ∧ t.fb.read 2 = 0x05#8)
          then .errHeader else .ok,
          BitVec.ofNat 16 (s.cur.val + c.length), none⟩)

/-- R106: RESET writes 0x00 to all of FB, sets CUR to 0 and answers OK with 0, in every state, and is idempotent. -/
def Obligations.ResetEffect : Prop :=
  ∀ s : State, ∃ t, exec .reset s = .next t ∧ t.cur.val = 0 ∧ (∀ a, a < 625 → t.fb.read a = 0x00) ∧
    t.cmdPort = s.cmdPort ∧ t.rspPort = some ⟨0x02, .ok, 0, none⟩ ∧ exec .reset t = .next t

/-- R104, R105, R107: the three queries answer OK with their value of CUR and change nothing else. -/
def Obligations.QueriesAnswerCursor : Prop :=
  ∀ s : State,
    exec .isComplete s =
      .next { s with rspPort := some ⟨0x03, .ok, if s.cur.val = 625 then 1 else 0, none⟩ } ∧
    exec .isEmpty s = .next { s with rspPort := some ⟨0x04, .ok, if s.cur.val = 0 then 1 else 0, none⟩ } ∧
    exec .outstanding s =
      .next { s with rspPort := some ⟨0x05, .ok, BitVec.ofNat 16 (625 - s.cur.val), none⟩ }

/-- R108: PEEK answers a live byte zero-extended to 16 bits, ERR_INDEX with 0 for every other index, and changes
nothing else. -/
def Obligations.PeekReadsLiveByte : Prop :=
  ∀ (s : State) (a : Nat), exec (.peek a) s =
    .next { s with rspPort := some (if a < s.cur.val then ⟨0x07, .ok, (s.fb.read a).setWidth 16, none⟩
      else ⟨0x07, .errIndex, 0, none⟩) }

/-- R79: an abstract APPEND with no binary form has the result of every binary APPEND with LEN in 626..65535, and an
abstract PEEK with no binary form is answered ERR_INDEX. -/
def Obligations.CommandsWithoutBinaryForm : Prop :=
  (∀ (s : State) (c d : List Byte), 65535 < c.length → 626 ≤ d.length → d.length ≤ 65535 →
    exec (.append c) s = exec (.append d) s ∧
    exec (.append c) s =
      .next { s with rspPort := some ⟨0x01, .errOverflow, BitVec.ofNat 16 s.cur.val, none⟩ }) ∧
  ∀ (s : State) (a : Nat), 65535 < a →
    exec (.peek a) s = .next { s with rspPort := some ⟨0x07, .errIndex, 0, none⟩ }

/-- R53 (which the spec derives from R101 to R108 and R136): repeating a command that only reads gives the same
response and leaves FB and CUR alone; RESET is idempotent; a second identical APPEND advances CUR again or is
rejected. -/
def Obligations.RepeatedCommands : Prop :=
  (∀ (s t : State) (i : Instr),
    i = .isComplete ∨ i = .isEmpty ∨ i = .outstanding ∨ i = .decode ∨ (∃ a, i = .peek a) →
    exec i s = .next t → t.fb = s.fb ∧ t.cur = s.cur ∧ exec i t = .next t) ∧
  (∀ s t : State, exec .reset s = .next t → exec .reset t = .next t) ∧
  ∀ (s t u : State) (c : List Byte), exec (.append c) s = .next t → exec (.append c) t = .next u →
    (c ≠ [] ∧ u.cur.val = t.cur.val + c.length) ∨
    (u.fb = t.fb ∧ u.cur = t.cur ∧
      ∃ r, u.rspPort = some r ∧ (r.status = .errEmpty ∨ r.status = .errOverflow))

/-- R21, R22, R41: the frame of every command. None touches the command port; only APPEND and RESET write FB or CUR.
-/
def Obligations.OnlyAppendAndResetWrite : Prop :=
  ∀ (i : Instr) (s t : State), exec i s = .next t →
    t.cmdPort = s.cmdPort ∧
    ((∀ c, i ≠ .append c) → i ≠ .reset → t.fb = s.fb ∧ t.cur = s.cur)

/-- R204, for the commands of `Instr` (IllegalWordsAnswered has the illegal words): every failure but ERR_HEADER from
APPEND leaves FB and CUR as they were; that one keeps the copy and the advance of CUR. -/
def Obligations.FailuresChangeNoState : Prop :=
  ∀ (i : Instr) (s t : State) (r : Rsp), exec i s = .next t → t.rspPort = some r → r.status ≠ .ok →
    (∀ c, i = .append c → r.status = .errHeader →
      t.cur.val = s.cur.val + c.length ∧ t.live = s.live ++ c ∧ t.cmdPort = s.cmdPort) ∧
    (¬ ((∃ c, i = .append c) ∧ r.status = .errHeader) → t = { s with rspPort := some r })

/-- R200, R203: each failure is answered by its command exactly under its cause, with the priorities of R203. -/
def Obligations.FailureCauses : Prop :=
  ∀ (i : Instr) (s t : State) (r : Rsp), exec i s = .next t → t.rspPort = some r →
    let hdr : Memory → Prop := fun m => m.read 0 = 0xFE#8 ∧ m.read 1 = 0xFF#8 ∧ m.read 2 = 0x05#8
    let ftr := s.fb.read 622 = 0xFF#8 ∧ s.fb.read 623 = 0xFE#8
    let cks := (s.fb.read 624).toNat = (∑ a ∈ Finset.range 624, (s.fb.read a).toNat) % 256
    (r.status = .errEmpty ↔ i = .append []) ∧
    (r.status = .errOverflow ↔ ∃ c, i = .append c ∧ 625 < s.cur.val + c.length) ∧
    (r.status = .errHeader ↔
      (∃ c, i = .append c ∧ c ≠ [] ∧ s.cur.val + c.length ≤ 625 ∧ 3 ≤ s.cur.val + c.length ∧ ¬ hdr t.fb) ∨
      (i = .decode ∧ s.cur.val = 625 ∧ ¬ hdr s.fb)) ∧
    (r.status = .errIncomplete ↔ i = .decode ∧ s.cur.val ≠ 625) ∧
    (r.status = .errFooter ↔ i = .decode ∧ s.cur.val = 625 ∧ hdr s.fb ∧ ¬ ftr) ∧
    (r.status = .errChecksum ↔ i = .decode ∧ s.cur.val = 625 ∧ hdr s.fb ∧ ftr ∧ ¬ cks) ∧
    (r.status = .errField ↔ i = .decode ∧ s.cur.val = 625 ∧ hdr s.fb ∧ ftr ∧ cks ∧
      calValid (extract Config.layout s.fb).timestamp = false) ∧
    (r.status = .errIndex ↔ ∃ a, i = .peek a ∧ s.cur.val ≤ a) ∧
    r.status ≠ .errIllegal

/-! ### Laws of the accumulator -/

/-- R35 (which the spec derives from R101 and R106): between RESETs the live prefix is an append-only list: an
accepted APPEND is list concatenation, RESET empties it, and every other command leaves it. -/
def Obligations.LivePrefixIsAppendOnly : Prop :=
  ∀ (i : Instr) (s t : State), exec i s = .next t →
    t.live = match i with
      | .append c => if s.cur.val + c.length ≤ 625 then s.live ++ c else s.live
      | .reset => []
      | _ => s.live

/-- R34 (which the spec derives from R101 and R106): once CUR >= 3, no command but RESET changes FB[0..2], and hdr_bad
keeps its value, along every run. -/
def Obligations.HeaderVerdictHolds : Prop :=
  ∀ (is : List Instr) (s : State), 3 ≤ s.cur.val → (∀ i ∈ is, i ≠ .reset) →
    3 ≤ (runCommands is s).2.cur.val ∧
    (∀ a, a < 3 → (runCommands is s).2.fb.read a = s.fb.read a) ∧
    (runCommands is s).2.hdrBad = s.hdrBad

/-- R109 and R110 (which the spec derives from R101, R102 and R34): chunking does not matter. Any split of 1 to 625
bytes into non-empty chunks, sent from CUR = 0, leaves the state of the single APPEND, and the answer to each chunk is
OK when the header is right or fewer than three bytes are there, and ERR_HEADER otherwise. -/
def Obligations.ChunkingDoesNotMatter : Prop :=
  ∀ (cs : List (List Byte)) (s : State), s.cur.val = 0 → (∀ c ∈ cs, c ≠ []) →
    1 ≤ cs.flatten.length → cs.flatten.length ≤ 625 →
    let r := runCommands (cs.map .append) s
    r.2.cur.val = cs.flatten.length ∧ r.2.live = cs.flatten ∧
    r.2.fb = (perform (.append cs.flatten) s).fb ∧ r.2.cur = (perform (.append cs.flatten) s).cur ∧
    r.1.length = cs.length ∧
    ∀ j, j < cs.length →
      r.1[j]? = some ⟨0x01,
        if cs.flatten.take 3 = [0xFE, 0xFF, 0x05] ∨ (cs.take (j + 1)).flatten.length < 3
        then .ok else .errHeader,
        BitVec.ofNat 16 (cs.take (j + 1)).flatten.length, none⟩

/-- R111 and R139 (which the spec derives from R101, R131, R132 and R34): a header failure lasts until RESET. After an
APPEND answered ERR_HEADER, no later APPEND before the next RESET is answered OK, and DECODE is answered
ERR_INCOMPLETE below CUR = 625 and ERR_HEADER at it, with no Reading. -/
def Obligations.HeaderFailureLasts : Prop :=
  ∀ (s₀ s : State) (c : List Byte) (r₀ : Rsp) (is : List Instr), exec (.append c) s₀ = .next s →
    s.rspPort = some r₀ → r₀.status = .errHeader → (∀ i ∈ is, i ≠ .reset) →
    ∀ k r, (runCommands is s).1[k]? = some r →
      (∀ d, is[k]? = some (.append d) →
        r.status = .errEmpty ∨ r.status = .errOverflow ∨ r.status = .errHeader) ∧
      (is[k]? = some .decode → r.reading = none ∧
        r.status = if (runCommands (is.take k) s).2.cur.val < 625 then .errIncomplete else .errHeader)

/-- R112 (which the spec derives from R101, R106 and R130): after RESET, IS_EMPTY gives 1 and OUTSTANDING 625, and
every later command is answered as from power-on reset: no trace of the discarded frame is left. -/
def Obligations.RecoveryAfterReset : Prop :=
  ∀ (s : State) (is : List Instr),
    (runCommands ([.reset, .isEmpty, .outstanding] ++ is) s).1 =
      [⟨0x02, .ok, 0, none⟩, ⟨0x04, .ok, 1, none⟩, ⟨0x05, .ok, 625, none⟩] ++
        (runCommands is State.reset).1

/-- R24, R30: stale bytes are never observable. Two states that differ only in their stale bytes give the same
responses to every list of commands, and end in states that differ only in their stale bytes. -/
def Obligations.StaleBytesNeverObserved : Prop :=
  ∀ (s t : State) (is : List Instr), SameButStale s t →
    (runCommands is s).1 = (runCommands is t).1 ∧ SameButStale (runCommands is s).2 (runCommands is t).2

/-- R234: what the block does when the host leaves out the RESET between frames: ERR_OVERFLOW at CUR = 625, ERR_HEADER
again after ERR_HEADER, and after ERR_OVERFLOW a shorter chunk that fits is appended to the same partial frame,
without the bytes of the dropped chunk. -/
def Obligations.MissedResetStaysDefined : Prop :=
  (∀ (s : State) (c : List Byte), s.cur.val = 625 → c ≠ [] → exec (.append c) s =
    .next { s with rspPort := some ⟨0x01, .errOverflow, BitVec.ofNat 16 625, none⟩ }) ∧
  (∀ (s₀ s : State) (b c : List Byte) (r₀ : Rsp), exec (.append b) s₀ = .next s → s.rspPort = some r₀ →
    r₀.status = .errHeader → c ≠ [] → s.cur.val + c.length ≤ 625 →
    ∃ t, exec (.append c) s = .next t ∧
      t.rspPort = some ⟨0x01, .errHeader, BitVec.ofNat 16 (s.cur.val + c.length), none⟩) ∧
  ∀ (s₀ s : State) (b c : List Byte) (r₀ : Rsp), exec (.append b) s₀ = .next s → s.rspPort = some r₀ →
    r₀.status = .errOverflow → c ≠ [] → s.cur.val + c.length ≤ 625 →
    ∃ t, exec (.append c) s = .next t ∧ t.live = s₀.live ++ c ∧
      t.rspPort = some ⟨0x01, if t.hdrBad then .errHeader else .ok, BitVec.ofNat 16 (s.cur.val + c.length), none⟩ ∧
      (3 ≤ s.cur.val → s.hdrBad = false → t.hdrBad = false)

/-- R234, R101: as long as the frame is not over (log entry 12: no DECODE, ERR_OVERFLOW or ERR_HEADER answered since
the last RESET), the live bytes are exactly the bytes the host has sent since the last RESET. Every command keeps this
from every state, power-on reset meets it with no byte sent, and so it holds after every run from there: the Reading
of the DECODE that comes next is that of the bytes sent. -/
def Obligations.OpenFrameHoldsAllBytesSent : Prop :=
  (∀ (s : State) (due : Bool) (acc : List Byte) (i : Instr), (due = false → s.live = acc) →
    overAfter due i (perform i s) = false → (perform i s).live = sentSinceReset acc [i]) ∧
  State.reset.live = [] ∧
  ∀ is : List Instr, overAfterAll false is State.reset = false →
    (runCommands is State.reset).2.live = sentSinceReset [] is

/-! ### DECODE and validation -/

/-- R130 to R136, R140: DECODE answers the first failing check in the order completeness, header, footer, checksum,
calendar, and OK with the Reading exactly when all pass; it changes nothing but the response. -/
def Obligations.DecodeChecksInOrder : Prop :=
  ∀ s : State, exec .decode s = .next { s with rspPort := some (
     if s.cur.val ≠ 625 then ⟨0x06, .errIncomplete, 0, none⟩
     else if ¬ (s.fb.read 0 = 0xFE#8 ∧ s.fb.read 1 = 0xFF#8 ∧ s.fb.read 2 = 0x05#8) then
       ⟨0x06, .errHeader, 0, none⟩
     else if s.fb.read 622 ≠ 0xFF#8 ∨ s.fb.read 623 ≠ 0xFE#8 then ⟨0x06, .errFooter, 0, none⟩
     else if (s.fb.read 624).toNat ≠ (∑ a ∈ Finset.range 624, (s.fb.read a).toNat) % 256 then
       ⟨0x06, .errChecksum, 0, none⟩
     else if calValid (extract Config.layout s.fb).timestamp = false then ⟨0x06, .errField, 0, none⟩
     else ⟨0x06, .ok, 0, some (extract Config.layout s.fb)⟩) }

/-- R134, and R138, which the spec derives from it: the checksum is the sum over the naturals, at most 159120, reduced
mod 256; it is what an 8-bit register that wraps on every addition holds; and a frame with the right header and footer
has checksum 0xFF plus its data bytes. -/
def Obligations.ChecksumIsWrappingSum : Prop :=
  ∀ fb : Memory,
    (checksum fb).toNat = (∑ a ∈ Finset.range 624, (fb.read a).toNat) % 256 ∧
    (∑ a ∈ Finset.range 624, (fb.read a).toNat) ≤ 159120 ∧
    checksum fb = (List.range 624).foldl (fun c a => c + fb.read a) 0x00#8 ∧
    (hdrOk fb = true → ftrOk fb = true →
      (checksum fb).toNat = (0xFF + ∑ a ∈ Finset.Ico 3 622, (fb.read a).toNat) % 256 ∧
      ((∀ a, 3 ≤ a → a ≤ 621 → fb.read a = 0x00#8) → checksum fb = 0xFF#8))

/-- R137 (which the spec derives from R132, R133 and R134): in a frame that passes checks 1 to 4, flipping one bit of
one byte is detected, by the check R137 names; adding 1 to one data byte and taking 1 from another leaves the checksum
unchanged. -/
def Obligations.SingleBitErrorsDetected : Prop :=
  ∀ (s t : State) (r : Rsp), exec .decode s = .next t → t.rspPort = some r →
    r.status = .ok ∨ r.status = .errField →
    (∀ j b, j < 625 → b < 8 →
      ∃ u, exec .decode { s with fb := s.fb.write j (s.fb.read j ^^^ (1#8 <<< b)) } = .next u ∧
        u.rspPort = some ⟨0x06,
          if j < 3 then .errHeader else if j = 622 ∨ j = 623 then .errFooter else .errChecksum, 0, none⟩) ∧
    ∀ a b, 3 ≤ a → a ≤ 621 → 3 ≤ b → b ≤ 621 → a ≠ b →
      checksum ((s.fb.write a (s.fb.read a + 1)).write b (s.fb.read b - 1)) = checksum s.fb

/-- R49 (which the spec derives from R47 and R134, with its decision D9 on which byte it is; log entry 5): a frame
that differs only in the unassigned byte, with its checksum corrected, decodes to the same Reading. -/
def Obligations.UnassignedByteNotInterpreted : Prop :=
  ∀ (s t : State) (rd : Reading) (b : Byte), exec .decode s = .next t →
    t.rspPort = some ⟨0x06, .ok, 0, some rd⟩ →
    let m := s.fb.write 487 b
    ∃ u, exec .decode { s with fb := m.write 624 (checksum m) } = .next u ∧
      u.rspPort = some ⟨0x06, .ok, 0, some rd⟩

/-! ### Extraction -/

/-- R48, R44: a LAYOUT is well-formed exactly when every byte of every field lies in 3..621 and no two fields share a
byte; LAYOUT_GEM625 is. -/
def Obligations.LayoutWellFormedByBytes : Prop :=
  (∀ L : Config.Layout, L.wf ↔
    (∀ r ∈ L.regions, ∀ a, r.1 ≤ a → a < r.1 + r.2 → 3 ≤ a ∧ a ≤ 621) ∧
    L.regions.Pairwise fun r q => ∀ a, ¬ ((r.1 ≤ a ∧ a < r.1 + r.2) ∧ (q.1 ≤ a ∧ a < q.1 + q.2))) ∧
  Config.layoutGem625.wf

/-- R151 to R155, R12: the extraction primitives are the shift-and-or formulas of their rules, and the 24-bit and
40-bit values are zero-extended: never above their magnitude, and never negative as a signed 64-bit integer. -/
def Obligations.PrimitivesAssembleBytes : Prop :=
  ∀ (fb : Memory) (o : Nat),
    u8 fb o = fb.read o ∧
    (u16le fb o).toNat = (fb.read o).toNat ||| ((fb.read (o + 1)).toNat <<< 8) ∧
    (u16be fb o).toNat = ((fb.read o).toNat <<< 8) ||| (fb.read (o + 1)).toNat ∧
    (u24be fb o).toNat =
      ((fb.read o).toNat <<< 16) ||| ((fb.read (o + 1)).toNat <<< 8) ||| (fb.read (o + 2)).toNat ∧
    (u24be fb o).toNat < 2 ^ 24 ∧
    (u40be fb o).toNat =
      ((fb.read o).toNat <<< 32) ||| ((fb.read (o + 1)).toNat <<< 24) ||| ((fb.read (o + 2)).toNat <<< 16) |||
        ((fb.read (o + 3)).toNat <<< 8) ||| (fb.read (o + 4)).toNat ∧
    (u40be fb o).toNat < 2 ^ 40 ∧
    0 ≤ (u40be fb o).toInt

/-- R47, R156 to R160, R162 to R167: the value of every field of the Reading under LAYOUT_GEM625, from the bytes at
its offsets, in its byte order. The offsets are the spec's own decisions D8 and D9, not the source's (log entry 5). -/
def Obligations.GemFrameFields : Prop :=
  ∀ fb : Memory,
    let b := fun a => (fb.read a).toNat
    let r := extract Config.layout fb
    r.voltageRaw.toNat = b 3 + 256 * b 4 ∧
    (∀ i : Fin 48, r.absEnergy[i].toNat =
      ((((b (5 + 5 * i)) * 256 + b (6 + 5 * i)) * 256 + b (7 + 5 * i)) * 256 + b (8 + 5 * i)) * 256 + b (9 + 5 * i)) ∧
    (∀ i : Fin 48, r.polEnergy[i].toNat =
      ((((b (245 + 5 * i)) * 256 + b (246 + 5 * i)) * 256 + b (247 + 5 * i)) * 256 + b (248 + 5 * i)) * 256 +
        b (249 + 5 * i)) ∧
    r.serial.toNat = b 485 + 256 * b 486 ∧
    r.deviceType.toNat = b 488 ∧
    r.deviceId = decFormat 2 (b 488) ++ decFormat 5 (b 485 + 256 * b 486) ∧
    (∀ i : Fin 48, r.currentRaw[i].toNat = 256 * b (489 + 2 * i) + b (490 + 2 * i)) ∧
    r.elapsedSeconds.toNat = (b 585 * 256 + b 586) * 256 + b 587 ∧
    (∀ i : Fin 4, r.pulse[i].toNat = (b (588 + 3 * i) * 256 + b (589 + 3 * i)) * 256 + b (590 + 3 * i)) ∧
    (∀ i : Fin 8, r.tempRaw[i].toNat = 256 * b (600 + 2 * i) + b (601 + 2 * i)) ∧
    r.timestamp.year.toNat = 2000 + b 616 ∧ r.timestamp.month.toNat = b 617 ∧ r.timestamp.day.toNat = b 618 ∧
    r.timestamp.hour.toNat = b 619 ∧ r.timestamp.minute.toNat = b 620 ∧ r.timestamp.second.toNat = b 621

/-- R161 (ASCII is the spec's from general knowledge, log entry 6): DEC_w(v) has max(w, nd(v)) characters, all ASCII
digits, and is the number v read from its most significant digit on; so the padding is the digit 0 and nothing is cut
off. -/
def Obligations.DecimalFormatting : Prop :=
  ∀ w v : Nat,
    (decFormat w v).length = max w (if v = 0 then 1 else Nat.log 10 v + 1) ∧
    (∀ c ∈ decFormat w v, 0x30 ≤ c.toNat ∧ c.toNat ≤ 0x39) ∧
    (decFormat w v).foldl (fun n c => n * 10 + (c.toNat - 0x30)) 0 = v

/-- R162: the identifier is DEC_2 of the type and then DEC_5 of the serial, 7 characters for types up to 99 and 8
above, its last 5 the serial's; and two different pairs have different identifiers. -/
def Obligations.DeviceIdentifierIsUnique : Prop :=
  (∀ (d : Byte) (s : Half),
    deviceIdOf d s = decFormat 2 d.toNat ++ decFormat 5 s.toNat ∧ (decFormat 5 s.toNat).length = 5 ∧
    (deviceIdOf d s).length = if d.toNat ≤ 99 then 7 else 8) ∧
  ∀ (d e : Byte) (s t : Half), deviceIdOf d s = deviceIdOf e t → d = e ∧ s = t

/-- R168, R169 (the Gregorian calendar is the spec's decision D11, log entry 6): CAL_VALID, with the days of each
month and the Gregorian leap years; in 2000..2255 the leap years are the multiples of 4 except 2100 and 2200. -/
def Obligations.CalendarRule : Prop :=
  (∀ t : Timestamp, calValid t = true ↔
    (1 ≤ t.month.toNat ∧ t.month.toNat ≤ 12) ∧
    (1 ≤ t.day.toNat ∧
      (t.month.toNat ∈ [1, 3, 5, 7, 8, 10, 12] ∧ t.day.toNat ≤ 31 ∨
       t.month.toNat ∈ [4, 6, 9, 11] ∧ t.day.toNat ≤ 30 ∨
       t.month.toNat = 2 ∧ t.day.toNat ≤
        if (t.year.toNat % 4 = 0 ∧ t.year.toNat % 100 ≠ 0) ∨ t.year.toNat % 400 = 0 then 29 else 28)) ∧
    t.hour.toNat ≤ 23 ∧ t.minute.toNat ≤ 59 ∧ t.second.toNat ≤ 59) ∧
  ∀ y, 2000 ≤ y → y ≤ 2255 → (leap y = true ↔ y % 4 = 0 ∧ y ≠ 2100 ∧ y ≠ 2200)

/-- R150, and R173, which the spec derives from R151 to R167: extraction is total and no field but the timestamp can
be out of range, under every LAYOUT and for every content of FB. -/
def Obligations.OnlyTimestampCanFail : Prop :=
  ∀ (L : Config.Layout) (fb : Memory),
    let r := extract L fb
    (∀ i : Fin 48, r.absEnergy[i].toNat < 2 ^ 40 ∧ 0 ≤ r.absEnergy[i].toInt) ∧
    (∀ i : Fin 48, r.polEnergy[i].toNat < 2 ^ 40 ∧ 0 ≤ r.polEnergy[i].toInt) ∧
    r.elapsedSeconds.toNat < 2 ^ 24 ∧ (∀ i : Fin 4, r.pulse[i].toNat < 2 ^ 24) ∧
    (r.deviceId.length = 7 ∨ r.deviceId.length = 8) ∧
    (∀ c ∈ r.deviceId, 0x30 ≤ c.toNat ∧ c.toNat ≤ 0x39) ∧
    (calValid r.timestamp = true → r.Legal)

/-- R176 (which the spec derives from R152 to R155): re-encoding the fields of a Reading gives back the raw bytes of
the frame, under every LAYOUT. -/
def Obligations.ReencodingGivesRawBytes : Prop :=
  ∀ (L : Config.Layout) (fb : Memory),
    let raw := fun o n => (List.range n).map fun k => fb.read (o + k)
    let r := extract L fb
    leBytes 2 r.voltageRaw.toNat = raw L.volt 2 ∧
    (∀ i : Fin 48, beBytes 5 r.absEnergy[i].toNat = raw (L.absE + 5 * i) 5) ∧
    (∀ i : Fin 48, beBytes 5 r.polEnergy[i].toNat = raw (L.polE + 5 * i) 5) ∧
    (∀ i : Fin 48, beBytes 2 r.currentRaw[i].toNat = raw (L.curr + 2 * i) 2) ∧
    beBytes 3 r.elapsedSeconds.toNat = raw L.secs 3 ∧
    (∀ i : Fin 4, beBytes 3 r.pulse[i].toNat = raw (L.pulse + 3 * i) 3)

/-- R172: the scaled quantities are exact rationals of the raw integers; a current has at most two decimal places. -/
def Obligations.ScaledQuantitiesExact : Prop :=
  ∀ r : Reading,
    r.voltage * 10 = r.voltageRaw.toNat ∧
    (∀ i, r.current i * 50 = r.currentRaw[i].toNat ∧ ∃ n : ℕ, r.current i * 100 = n) ∧
    ∀ i, r.temperature i * 2 = r.tempRaw[i].toNat

/-! ### Instances, the reference host, the assembler -/

/-- R33, R209: instances share nothing. A command to one connection, its opening and its closing leave the block of
every other connection alone; the command is performed on its own block; a new connection starts at the reset state
and a closed one is gone. The connection numbers, and that a connection accepted under a number already open takes the
place of the old one, are the model's choice (log entry 9). -/
def Obligations.InstancesAreIndependent : Prop :=
  ∀ (sys : System) (c : Nat) (i : Instr),
    (∀ d, d ≠ c → (sys.command c i).find d = sys.find d ∧ (sys.accept c).find d = sys.find d ∧
      (sys.close c).find d = sys.find d) ∧
    (sys.command c i).find c = (sys.find c).map (perform i) ∧
    (sys.accept c).find c = some State.reset ∧ (sys.close c).find c = none

/-- R213, R212, R234 (as far as commands and responses show it: log entry 12): what the reference host keeps between
chunks (`Driver.Inv`), from every driver that meets it and for every chunk: its block is in the state of the commands
it has issued, it has met the duty of R234, no frame is over or complete and no header failure stands. A driver at its
start meets it, and so it holds after every stream of chunks. The record of issued commands and the latch at the start
are the model's choice (log entry 9). -/
def Obligations.ReferenceHostMeetsDuty : Prop :=
  (∀ (d : Driver) (c : List Byte), d.Inv → (d.onBytesReceived c).1.Inv) ∧
  Driver.start.Inv ∧
  ∀ cs : List (List Byte), (Driver.feed cs Driver.start).1.Inv

/-- R84: the pseudo-instructions. FEED assembles to the APPEND of its slice with the length counted, and DECRST to
DECODE and then RESET, two commands. -/
def Obligations.PseudoInstructionsExpand : Prop :=
  (∀ (env : Asm.Env) (name : List Char) (a b : Nat) (bs : List Byte), env.lookup name = some bs → a ≤ b →
    b < bs.length → b - a + 1 ≤ 65535 →
    (Asm.Line.feed name a b).assemble env = some (env, [.append ((bs.drop a).take (b - a + 1))])) ∧
  ∀ env : Asm.Env, Asm.Line.decrst.assemble env = some (env, [.decode, .reset])
end

