-- ==== Sys2Proof/Laws/State.lean ====
section
/-!
SUPPORT. One lemma per field per update of State, so that no later proof unfolds a record update.
-/

namespace Sys2Proof.Machine

variable (s : State) (opc : Byte) (st : Status) (v : Half) (rd : Option Reading) (ws : List Word)

@[simp] theorem respond_fb : (s.respond opc st v rd).fb = s.fb := rfl
@[simp] theorem respond_cur : (s.respond opc st v rd).cur = s.cur := rfl
@[simp] theorem respond_cmdPort : (s.respond opc st v rd).cmdPort = s.cmdPort := rfl
@[simp] theorem respond_rspPort : (s.respond opc st v rd).rspPort = some ⟨opc, st, v, rd⟩ := rfl

@[simp] theorem clear_fb : s.clear.fb = Memory.clear := rfl
@[simp] theorem clear_cur : s.clear.cur = 0 := rfl
@[simp] theorem clear_cmdPort : s.clear.cmdPort = s.cmdPort := rfl
@[simp] theorem clear_rspPort : s.clear.rspPort = s.rspPort := rfl

variable (c : List Byte) (h : s.cur.val + c.length ≤ 625)

@[simp] theorem accept_fb : (s.accept c h).fb = s.fb.writeList s.cur.val c := rfl
@[simp] theorem accept_cur : (s.accept c h).cur.val = s.cur.val + c.length := rfl
@[simp] theorem accept_cmdPort : (s.accept c h).cmdPort = s.cmdPort := rfl
@[simp] theorem accept_rspPort : (s.accept c h).rspPort = s.rspPort := rfl

@[simp] theorem consume_fb : (s.consume ws).fb = s.fb := rfl
@[simp] theorem consume_cur : (s.consume ws).cur = s.cur := rfl
@[simp] theorem consume_cmdPort : (s.consume ws).cmdPort = ws := rfl
@[simp] theorem consume_rspPort : (s.consume ws).rspPort = none := rfl

/-- The host may issue exactly when nothing is outstanding on either port (R212). -/
theorem ready_iff : s.ready = true ↔ s.cmdPort = [] ∧ s.rspPort = none := by simp [State.ready]

/-- All that issuing does (R212). -/
theorem issue_cases {s t : State} {ws : List Word} (h : s.issue ws = some t) :
    s.cmdPort = [] ∧ s.rspPort = none ∧ oneCommand ws = true ∧ t = { s with cmdPort := ws } := by
  unfold State.issue at h
  split at h
  · next hr =>
    rw [Bool.and_eq_true, ready_iff] at hr
    exact ⟨hr.1.1, hr.1.2, hr.2, (Option.some.inj h).symm⟩
  · cases h

theorem issue_ready {s : State} {ws : List Word} (hc : s.cmdPort = []) (hr : s.rspPort = none)
    (hw : oneCommand ws = true) : s.issue ws = some { s with cmdPort := ws } := by
  rw [State.issue, if_pos (by simp [State.ready, hc, hr, hw])]

theorem issue_busy {s : State} (ws : List Word) (h : s.cmdPort ≠ [] ∨ s.rspPort ≠ none) : s.issue ws = none := by
  cases hi : s.issue ws with
  | none => rfl
  | some t => exact (h.elim (absurd (issue_cases hi).1) (absurd (issue_cases hi).2.1))

theorem takeResponse_some {s : State} {r : Rsp} (h : s.rspPort = some r) :
    s.takeResponse = some (r, { s with rspPort := none }) := by
  rw [State.takeResponse, h]; rfl

@[simp] theorem issueFirst_fb : (s.issueFirst ws).fb = s.fb := rfl
@[simp] theorem issueFirst_cur : (s.issueFirst ws).cur = s.cur := rfl
@[simp] theorem issueFirst_cmdPort : (s.issueFirst ws).cmdPort = ws ++ s.cmdPort := rfl
@[simp] theorem issueFirst_rspPort : (s.issueFirst ws).rspPort = s.rspPort := rfl

@[simp] theorem reset_fb : State.reset.fb = [] := rfl
@[simp] theorem reset_cur : State.reset.cur = 0 := rfl
@[simp] theorem reset_cmdPort : State.reset.cmdPort = [] := rfl
@[simp] theorem reset_rspPort : State.reset.rspPort = none := rfl

/-- Two states are equal when their four fields are. -/
theorem State.eq_of_fields {s t : State} (h1 : s.fb = t.fb) (h2 : s.cur = t.cur) (h3 : s.cmdPort = t.cmdPort)
    (h4 : s.rspPort = t.rspPort) : s = t := by
  cases s; cases t; simp_all

end Sys2Proof.Machine
end

