-- ==== Sys2Proof/Laws/Memory.lean ====
section
/-!
SUPPORT. The laws of the Frame Buffer's cells: read after write, writes elsewhere, chunk writes, and the canonical
form, which every memory operation keeps.
-/

namespace Sys2Proof.Machine

@[simp] theorem read_nil (a : Nat) : Memory.read [] a = 0x00 := rfl

@[simp] theorem read_clear (a : Nat) : Memory.read Memory.clear a = 0x00 := rfl

theorem read_cons (k : Nat) (b : Byte) (m : Memory) (a : Nat) :
    Memory.read ((k, b) :: m) a = if k = a then b else Memory.read m a := rfl

theorem read_erase (m : Memory) (a x : Nat) :
    (m.erase a).read x = if x = a then 0x00 else m.read x := by
  induction m with
  | nil => simp [Memory.erase]
  | cons c m ih =>
    obtain ⟨k, b⟩ := c
    simp only [Memory.erase, List.filter_cons, read_cons] at ih ⊢
    split <;> simp only [read_cons, ih] <;> grind

theorem read_insert (m : Memory) (a x : Nat) (b : Byte) (h : ∀ c ∈ m, c.1 ≠ a) :
    (m.insert a b).read x = if x = a then b else m.read x := by
  induction m with
  | nil => simp [Memory.insert, read_cons, eq_comm]
  | cons c m ih =>
    obtain ⟨k, v⟩ := c
    have := h (k, v) (by simp)
    have := ih fun c hc => h c (by simp [hc])
    simp only [Memory.insert]
    split <;> simp only [read_cons, this] <;> grind

theorem mem_erase {m : Memory} {a : Nat} {c : Host.Cell} : c ∈ m.erase a ↔ c ∈ m ∧ c.1 ≠ a := by
  simp [Memory.erase]

theorem mem_insert {m : Memory} {a : Nat} {b : Byte} {c : Host.Cell} :
    c ∈ m.insert a b ↔ c = (a, b) ∨ c ∈ m := by
  induction m with
  | nil => simp [Memory.insert]
  | cons d m ih =>
    simp only [Memory.insert]
    split <;> simp [ih]; tauto

/-- A read after a write to the same byte gives the value written; every other byte reads as before. -/
theorem read_write (m : Memory) (a x : Nat) (b : Byte) :
    (m.write a b).read x = if x = a then b else m.read x := by
  unfold Memory.write
  split
  · next h => rw [read_erase, h]; rfl
  · rw [read_insert _ _ _ _ fun c hc => (mem_erase.1 hc).2, read_erase]; grind

@[simp] theorem read_write_self (m : Memory) (a : Nat) (b : Byte) : (m.write a b).read a = b := by
  simp [read_write]

theorem read_write_ne (m : Memory) {a x : Nat} (b : Byte) (h : x ≠ a) : (m.write a b).read x = m.read x := by
  simp [read_write, h]

/-- Reading after a chunk is written: inside the chunk its byte, outside what was there. -/
theorem read_writeList (m : Memory) (a x : Nat) (bs : List Byte) :
    (m.writeList a bs).read x = if a ≤ x then (bs[x - a]?).getD (m.read x) else m.read x := by
  induction bs generalizing m a with
  | nil => simp [Memory.writeList]
  | cons b bs ih =>
    rw [Memory.writeList, ih, read_write]
    by_cases h : x = a
    · subst h; simp
    · by_cases h' : a + 1 ≤ x
      · have : x - a = (x - (a + 1)) + 1 := by omega
        simp [h', h, this, show a ≤ x by omega]
      · simp [h', h, show ¬ a ≤ x by omega]

theorem read_writeList_mem (m : Memory) (a k : Nat) (bs : List Byte) (h : k < bs.length) :
    (m.writeList a bs).read (a + k) = bs[k] := by
  simp [read_writeList, h]

theorem read_writeList_out (m : Memory) (a x : Nat) (bs : List Byte) (h : x < a ∨ a + bs.length ≤ x) :
    (m.writeList a bs).read x = m.read x := by
  rw [read_writeList]
  split
  · rw [List.getElem?_eq_none (by omega)]; rfl
  · rfl

/-- Writing two chunks one after the other is writing their concatenation. -/
theorem writeList_append (m : Memory) (a : Nat) (bs cs : List Byte) :
    m.writeList a (bs ++ cs) = (m.writeList a bs).writeList (a + bs.length) cs := by
  induction bs generalizing m a with
  | nil => rfl
  | cons b bs ih =>
    simp only [List.cons_append, Memory.writeList, ih, List.length_cons]
    congr 1; omega

/-! ### The canonical form -/

theorem wf_nil : Memory.wf [] := by simp [Memory.wf]

theorem wf_clear : Memory.wf Memory.clear := wf_nil

theorem wf_erase {m : Memory} (h : m.wf) (a : Nat) : (m.erase a).wf :=
  ⟨h.1.filter _, fun c hc => h.2 c (mem_erase.1 hc).1⟩

theorem pairwise_insert {m : Memory} (h : m.Pairwise fun c d => c.1 < d.1) (a : Nat) (b : Byte)
    (ha : ∀ c ∈ m, c.1 ≠ a) : (m.insert a b).Pairwise fun c d => c.1 < d.1 := by
  induction m with
  | nil => simp [Memory.insert]
  | cons c m ih =>
    obtain ⟨k, v⟩ := c
    rw [List.pairwise_cons] at h
    have hk : k ≠ a := ha (k, v) (by simp)
    simp only [Memory.insert]
    split
    · next hlt =>
      refine List.pairwise_cons.2 ⟨?_, List.pairwise_cons.2 h⟩
      intro d hd
      rcases List.mem_cons.1 hd with rfl | hd
      · exact hlt
      · exact hlt.trans (h.1 d hd)
    · refine List.pairwise_cons.2 ⟨?_, ih h.2 fun c hc => ha c (by simp [hc])⟩
      intro d hd
      rcases mem_insert.1 hd with rfl | hd
      · simp only; omega
      · exact h.1 d hd

/-- A write inside the frame keeps the canonical form. -/
theorem wf_write {m : Memory} (h : m.wf) {a : Nat} (b : Byte) (ha : a < 625) : (m.write a b).wf := by
  unfold Memory.write
  split
  · exact wf_erase h a
  · next hb =>
    refine ⟨pairwise_insert (wf_erase h a).1 a b fun c hc => (mem_erase.1 hc).2, fun c hc => ?_⟩
    rcases mem_insert.1 hc with rfl | hc
    · exact ⟨ha, hb⟩
    · exact (wf_erase h a).2 c hc

/-- A chunk written inside the frame keeps the canonical form. -/
theorem wf_writeList {m : Memory} (h : m.wf) {a : Nat} {bs : List Byte}
    (ha : a + bs.length ≤ 625) : (m.writeList a bs).wf := by
  induction bs generalizing m a with
  | nil => exact h
  | cons b bs ih =>
    simp only [List.length_cons] at ha
    exact ih (wf_write h b (by omega)) (by omega)

/-- Two memories in canonical form that read alike everywhere are the same cells. -/
theorem wf_ext {m n : Memory} (hm : m.wf) (hn : n.wf) (h : ∀ a, m.read a = n.read a) : m = n := by
  have read_mem : ∀ {m : Memory}, m.wf → ∀ k b, ((k, b) ∈ m ↔ b ≠ 0x00 ∧ m.read k = b) := by
    intro m hm k b
    induction m with
    | nil => exact ⟨fun h => absurd h (by simp), fun h => absurd h.2.symm h.1⟩
    | cons c m ih =>
      obtain ⟨j, v⟩ := c
      have hp := List.pairwise_cons.1 hm.1
      have hw : Memory.wf m := ⟨hp.2, fun c hc => hm.2 c (by simp [hc])⟩
      have hv : v ≠ 0x00 := (hm.2 (j, v) (by simp)).2
      rw [read_cons, List.mem_cons]
      by_cases hj : j = k
      · subst hj
        have hn : (j, b) ∉ m := fun hc => absurd (hp.1 _ hc) (Nat.lt_irrefl j)
        simp only [hn, or_false, if_true, Prod.mk.injEq, true_and]
        constructor
        · rintro rfl; exact ⟨hv, rfl⟩
        · exact fun h => h.2.symm
      · rw [if_neg hj, ← ih hw]
        simp [show ¬ (k = j) from fun h => hj h.symm]
  have hmem : ∀ c, c ∈ m ↔ c ∈ n := by
    rintro ⟨k, b⟩; rw [read_mem hm, read_mem hn, h]
  have hnd : ∀ {m : Memory}, m.wf → m.Nodup := fun hm =>
    hm.1.imp fun {c d} hcd he => by simp [he] at hcd
  exact List.Perm.eq_of_pairwise (fun c d _ _ h1 h2 => absurd (Nat.lt_trans h1 h2) (Nat.lt_irrefl _)) hm.1 hn.1
    ((List.perm_ext_iff_of_nodup (hnd hm) (hnd hn)).2 hmem)

theorem read_zeroed (m : Memory) (n a : Nat) :
    (m.writeList 0 (List.replicate n 0x00)).read a = if a < n then 0x00 else m.read a := by
  rw [read_writeList, if_pos (Nat.zero_le a), Nat.sub_zero, List.getElem?_replicate]
  split <;> rfl

/-- No cell of a memory in canonical form lies at or above 625, so nothing there is listed (R40). -/
theorem read_outside {m : Memory} (h : m.wf) {a : Nat} (ha : 625 ≤ a) : m.read a = 0x00 := by
  have hb := h.2
  clear h
  induction m with
  | nil => rfl
  | cons c m ih =>
    obtain ⟨k, v⟩ := c
    have hk := (hb (k, v) (by simp)).1
    rw [read_cons, if_neg (Nat.ne_of_lt (Nat.lt_of_lt_of_le hk ha))]
    exact ih fun c hc => hb c (by simp [hc])

/-- RESET's clear buffer is what the loop of R106 leaves: 0x00 written at each offset 0..624. -/
theorem clear_eq_zeroed {m : Memory} (h : m.wf) :
    m.writeList 0 (List.replicate Config.frameSize 0x00) = Memory.clear := by
  refine wf_ext (wf_writeList h (Nat.le_of_eq (by rw [Nat.zero_add, List.length_replicate]))) wf_clear fun a => ?_
  rw [read_zeroed, read_clear]
  split
  · rfl
  · next ha => exact read_outside h (Nat.le_of_not_lt ha)

end Sys2Proof.Machine
end

