-- ==== Sys2Proof/Laws/Exec.lean ====
section
/-!
SUPPORT. One spec lemma per command, the inversion of `exec` (everything a command can do), and the lemmas of
`perform` and `runCommands` that follow from it.
-/

namespace Sys2Proof.Machine

/-! ### APPEND -/

theorem execAppend_nil (s : State) :
    execAppend [] s = .next (s.respond Opcode.append .errEmpty s.curVal none) := rfl

theorem execAppend_overflows {s : State} {c : List Byte} (h : 625 < s.cur.val + c.length) :
    execAppend c s = .next (s.respond Opcode.append .errOverflow s.curVal none) := by
  have h0 : ¬ c.length = 0 := fun h0 => by have := s.cur.isLt; omega
  rw [execAppend, if_neg h0, dif_neg (by simp; omega)]

theorem execAppend_fits {s : State} {c : List Byte} (hc : c ≠ [])
    (h : s.cur.val + c.length ≤ 625) :
    execAppend c s = .next ((s.accept c h).respond Opcode.append
      (if (s.accept c h).hdrBad then .errHeader else .ok) (s.accept c h).curVal none) := by
  rw [execAppend, if_neg (by simpa using hc), dif_pos h]

/-! ### PEEK -/

theorem execPeek_live {s : State} {a : Nat} (h : a < s.cur.val) :
    execPeek a s = .next (s.respond Opcode.peek .ok ((s.fb.read a).setWidth 16) none) := by
  rw [execPeek, State.liveByte, if_pos h]

theorem execPeek_stale {s : State} {a : Nat} (h : s.cur.val ≤ a) :
    execPeek a s = .next (s.respond Opcode.peek .errIndex 0 none) := by
  rw [execPeek, State.liveByte, if_neg (by omega)]

/-! ### DECODE -/

theorem execDecodeWith_fails {L : Config.Layout} {s : State} (h : validate s ≠ .ok) :
    execDecodeWith L s = .next (s.respond Opcode.decode (validate s) 0 none) := by
  unfold execDecodeWith
  split
  · contradiction
  · rfl

theorem execDecodeWith_badDate {L : Config.Layout} {s : State} (h : validate s = .ok)
    (hc : calValid (extractTimestamp L s.fb) = false) :
    execDecodeWith L s = .next (s.respond Opcode.decode .errField 0 none) := by
  simp only [execDecodeWith, h, extract, hc]
  rfl

theorem execDecodeWith_ok {L : Config.Layout} {s : State} (h : validate s = .ok)
    (hc : calValid (extractTimestamp L s.fb) = true) :
    execDecodeWith L s = .next (s.respond Opcode.decode .ok 0 (some (extract L s.fb))) := by
  simp only [execDecodeWith, h]
  rw [if_pos (by exact hc)]

/-- The statuses of validation (R131 to R134). -/
theorem validate_cases (s : State) :
    validate s = .errIncomplete ∨ validate s = .errHeader ∨ validate s = .errFooter ∨
      validate s = .errChecksum ∨ validate s = .ok := by
  unfold validate
  split_ifs <;> simp

theorem validate_ok_iff (s : State) :
    validate s = .ok ↔
      s.cur.val = 625 ∧ hdrOk s.fb = true ∧ ftrOk s.fb = true ∧ cksOk s.fb = true := by
  unfold validate State.complete
  split_ifs <;> simp_all

theorem validate_incomplete {s : State} (h : s.cur.val ≠ 625) : validate s = .errIncomplete := by
  simp [validate, State.complete, h]

theorem validate_headerBad {s : State} (h : s.cur.val = 625) (hh : hdrOk s.fb = false) :
    validate s = .errHeader := by
  simp [validate, State.complete, h, hh]

/-! ### The inversion of exec -/

/-- Everything a command can do: an accepted APPEND copies its chunk, RESET clears, and every other outcome only
answers; a Reading is answered only by DECODE with OK. -/
inductive Outcomes (i : Instr) (s t : State) : Prop where
  | accepted (c : List Byte) (h : s.cur.val + c.length ≤ 625) (hi : i = .append c) (hc : c ≠ [])
      (ht : t = (s.accept c h).respond Opcode.append (if (s.accept c h).hdrBad then .errHeader else .ok)
        (s.accept c h).curVal none)
  | cleared (hi : i = .reset) (ht : t = s.clear.respond Opcode.reset .ok 0 none)
  | reading (hi : i = .decode) (hv : validate s = .ok)
      (hd : calValid (extractTimestamp Config.layout s.fb) = true)
      (ht : t = s.respond Opcode.decode .ok 0 (some (extract Config.layout s.fb)))
  | answered (st : Status) (v : Half) (hi : i ≠ .reset) (hs : statusAllowed i.opcode st = true)
      (ha : ∀ c, i = .append c → st = .errEmpty ∧ c = [] ∨ st = .errOverflow ∧ 625 < s.cur.val + c.length)
      (hd : i = .decode → st ≠ .ok)
      (ht : t = s.respond i.opcode st v none)

/-- `exec` always answers a next state, and it is one of `Outcomes` (R100). -/
theorem exec_total (i : Instr) (s : State) : ∃ t, exec i s = .next t ∧ Outcomes i s t := by
  cases i with
  | append c =>
    by_cases hc : c = []
    · subst hc
      exact ⟨_, rfl, .answered .errEmpty s.curVal (by simp) rfl (by simp) (by simp) rfl⟩
    · by_cases h : s.cur.val + c.length ≤ 625
      · exact ⟨_, execAppend_fits hc h, .accepted c h rfl hc rfl⟩
      · refine ⟨_, execAppend_overflows (by omega), .answered .errOverflow s.curVal (by simp) rfl ?_ (by simp) rfl⟩
        rintro c' ⟨rfl⟩
        exact .inr ⟨rfl, by omega⟩
  | reset => exact ⟨_, rfl, .cleared rfl rfl⟩
  | isComplete => exact ⟨_, rfl, .answered .ok _ (by simp) rfl (by simp) (by simp) rfl⟩
  | isEmpty => exact ⟨_, rfl, .answered .ok _ (by simp) rfl (by simp) (by simp) rfl⟩
  | outstanding => exact ⟨_, rfl, .answered .ok _ (by simp) rfl (by simp) (by simp) rfl⟩
  | decode =>
    by_cases hv : validate s = .ok
    · by_cases hd : calValid (extractTimestamp Config.layout s.fb) = true
      · exact ⟨_, execDecodeWith_ok hv hd, .reading rfl hv hd rfl⟩
      · exact ⟨_, execDecodeWith_badDate hv (by simpa using hd),
          .answered .errField 0 (by simp) rfl (by simp) (by simp) rfl⟩
    · refine ⟨_, execDecodeWith_fails hv, .answered (validate s) 0 (by simp) ?_ (by simp) (fun _ => hv) rfl⟩
      rcases validate_cases s with h | h | h | h | h <;> first | exact absurd h hv | (rw [h]; rfl)
  | peek a =>
    by_cases h : a < s.cur.val
    · exact ⟨_, execPeek_live h, .answered .ok _ (by simp) rfl (by simp) (by simp) rfl⟩
    · exact ⟨_, execPeek_stale (by omega), .answered .errIndex _ (by simp) rfl (by simp) (by simp) rfl⟩

theorem exec_perform (i : Instr) (s : State) : exec i s = .next (perform i s) := by
  obtain ⟨t, ht, -⟩ := exec_total i s
  simp [perform, ht]

theorem perform_of_exec {i : Instr} {s t : State} (h : exec i s = .next t) : perform i s = t := by
  simp [perform, h]

theorem perform_cases (i : Instr) (s : State) : Outcomes i s (perform i s) := by
  obtain ⟨t, ht, hc⟩ := exec_total i s
  rwa [perform_of_exec ht]

theorem exec_cases {i : Instr} {s t : State} (h : exec i s = .next t) : Outcomes i s t :=
  perform_of_exec h ▸ perform_cases i s

/-- Every command answers one response, under its own opcode (R80). -/
theorem perform_rspPort (i : Instr) (s : State) :
    ∃ r, (perform i s).rspPort = some r ∧ r.opc = i.opcode := by
  cases perform_cases i s with
  | accepted c h hi hc ht => exact ⟨_, by rw [ht]; rfl, by rw [hi]; rfl⟩
  | cleared hi ht => exact ⟨_, by rw [ht]; rfl, by rw [hi]; rfl⟩
  | reading hi hv hd ht => exact ⟨_, by rw [ht]; rfl, by rw [hi]; rfl⟩
  | answered st v hi hs ha hd ht => exact ⟨_, by rw [ht]; rfl, rfl⟩

/-- No command touches the command port. -/
@[simp] theorem perform_cmdPort (i : Instr) (s : State) : (perform i s).cmdPort = s.cmdPort := by
  cases perform_cases i s with
  | accepted c h hi hc ht => rw [ht]; rfl
  | cleared hi ht => rw [ht]; rfl
  | reading hi hv hd ht => rw [ht]; rfl
  | answered st v hi hs ha hd ht => rw [ht]; rfl

/-! ### What a command depends on -/

/-- A command depends on FB and CUR alone: what stands on the ports changes neither its effect nor its response (R20,
R27). -/
theorem perform_ports (i : Instr) (s : State) (ws : List Word) (r : Option Rsp) :
    perform i { s with cmdPort := ws, rspPort := r } = { perform i s with cmdPort := ws } := by
  have key : ∀ {t : State}, exec i s = .next t →
      exec i { s with cmdPort := ws, rspPort := r } = .next { t with cmdPort := ws } →
      perform i { s with cmdPort := ws, rspPort := r } = { perform i s with cmdPort := ws } := by
    intro t h1 h2
    rw [perform_of_exec h1, perform_of_exec h2]
  cases i with
  | append c =>
    by_cases hc : c = []
    · subst hc; exact key rfl rfl
    · by_cases h : s.cur.val + c.length ≤ 625
      · exact key (execAppend_fits hc h) (execAppend_fits (s := { s with cmdPort := ws, rspPort := r }) hc h)
      · exact key (execAppend_overflows (not_le.1 h))
          (execAppend_overflows (s := { s with cmdPort := ws, rspPort := r }) (not_le.1 h))
  | reset => rfl
  | isComplete => rfl
  | isEmpty => rfl
  | outstanding => rfl
  | decode =>
    by_cases h : validate s = .ok
    · by_cases hd : calValid (extractTimestamp Config.layout s.fb) = true
      · exact key (execDecodeWith_ok h hd)
          (execDecodeWith_ok (s := { s with cmdPort := ws, rspPort := r }) h hd)
      · exact key (execDecodeWith_badDate h (by simpa using hd))
          (execDecodeWith_badDate (s := { s with cmdPort := ws, rspPort := r }) h (by simpa using hd))
    · exact key (execDecodeWith_fails h) (execDecodeWith_fails (s := { s with cmdPort := ws, rspPort := r }) h)
  | peek a =>
    by_cases h : a < s.cur.val
    · exact key (execPeek_live h) (execPeek_live (s := { s with cmdPort := ws, rspPort := r }) h)
    · exact key (execPeek_stale (not_lt.1 h))
        (execPeek_stale (s := { s with cmdPort := ws, rspPort := r }) (not_lt.1 h))

/-- A command's effect and response on the state with its words consumed. -/
theorem perform_consume (i : Instr) (s : State) (ws : List Word) :
    perform i (s.consume ws) = { perform i s with cmdPort := ws } := perform_ports i s ws none

theorem perform_overflows {s : State} {c : List Byte} (h : 625 < s.cur.val + c.length) :
    perform (.append c) s = s.respond Opcode.append .errOverflow s.curVal none :=
  perform_of_exec (i := .append c) (execAppend_overflows h)

theorem perform_stale {s : State} {a : Nat} (h : s.cur.val ≤ a) :
    perform (.peek a) s = s.respond Opcode.peek .errIndex 0 none :=
  perform_of_exec (i := .peek a) (execPeek_stale h)

/-- The command a host sends in place of one without a binary form has its result (R79). -/
theorem perform_binaryForm (i : Instr) (s : State) : perform i.binaryForm s = perform i s := by
  have hs : s.cur.val < 626 := s.cur.isLt
  cases i with
  | append c =>
    by_cases h : c.length ≤ 65535
    · simp only [Instr.binaryForm, List.take_of_length_le h]
    · have h' : 625 < s.cur.val + (c.take 65535).length := by rw [List.length_take]; omega
      exact (perform_overflows h').trans (perform_overflows (by omega)).symm
  | peek a =>
    by_cases h : a ≤ 65535
    · simp only [Instr.binaryForm, Nat.min_eq_left h]
    · exact (perform_stale (by omega)).trans (perform_stale (by omega)).symm
  | reset => rfl
  | isComplete => rfl
  | isEmpty => rfl
  | outstanding => rfl
  | decode => rfl

/-! ### Runs -/

@[simp] theorem runCommands_nil (s : State) : runCommands [] s = ([], s) := rfl

theorem runCommands_cons (i : Instr) (is : List Instr) (s : State) :
    runCommands (i :: is) s =
      ((perform i s).rspPort.toList ++ (runCommands is (perform i s)).1, (runCommands is (perform i s)).2) := rfl

theorem runCommands_append (is js : List Instr) (s : State) :
    runCommands (is ++ js) s =
      ((runCommands is s).1 ++ (runCommands js (runCommands is s).2).1, (runCommands js (runCommands is s).2).2) := by
  induction is generalizing s with
  | nil => simp
  | cons i is ih => simp [runCommands_cons, ih]

/-- A run answers one response for each command (R80). -/
theorem runCommands_length (is : List Instr) (s : State) : (runCommands is s).1.length = is.length := by
  induction is generalizing s with
  | nil => rfl
  | cons i is ih =>
    obtain ⟨r, hr, -⟩ := perform_rspPort i s
    simp [runCommands_cons, ih, hr]

/-! ### Live bytes -/

theorem live_length (s : State) : s.live.length = s.cur.val := by simp [State.live]

theorem live_getElem {s : State} {k : Nat} (h : k < s.live.length) : s.live[k] = s.fb.read k := by
  simp [State.live]

/-- A live byte is the byte of the live prefix; a stale one has no value (R24). -/
theorem live_getElem? (s : State) (a : Nat) : s.live[a]? = s.liveByte a := by
  by_cases h : a < s.cur.val <;> simp [State.live, State.liveByte, h]

/-- `MemRead(0, 625)` of R130 meets its precondition at CUR = 625, and is the whole frame (R11, R131). -/
theorem memRead_frame {s : State} (h : s.cur.val = 625) : s.memRead 0 625 = some s.live := by
  rw [State.memRead, if_pos (by omega), State.live, h]
  simp only [Nat.zero_add]

theorem live_respond (s : State) (opc : Byte) (st : Status) (v : Half) (rd : Option Reading) :
    (s.respond opc st v rd).live = s.live := rfl

theorem live_clear (s : State) : s.clear.live = [] := rfl

/-- An accepted chunk is appended to the live prefix (R35). -/
theorem live_accept (s : State) (c : List Byte) (h : s.cur.val + c.length ≤ 625) :
    (s.accept c h).live = s.live ++ c := by
  apply List.ext_getElem
  · simp [live_length]
  · intro k h1 h2
    rw [live_getElem, accept_fb, List.getElem_append]
    simp only [live_length, accept_cur] at h1
    split
    · next hk =>
      rw [live_length] at hk
      rw [read_writeList_out _ _ _ _ (.inl hk), live_getElem]
    · next hk =>
      simp only [live_length, not_lt] at hk
      obtain ⟨j, rfl⟩ := Nat.exists_eq_add_of_le hk
      rw [read_writeList_mem _ _ _ _ (by omega)]
      simp [live_length]

/-- The header test reads only FB[0..2]. -/
theorem hdrOk_congr {m n : Memory} (h : ∀ a, a < 3 → m.read a = n.read a) : hdrOk m = hdrOk n := by
  simp [hdrOk, h]

theorem hdrOk_iff (m : Memory) : hdrOk m = true ↔ m.read 0 = 0xFE ∧ m.read 1 = 0xFF ∧ m.read 2 = 0x05 := by
  simp [hdrOk, and_assoc]

theorem ftrOk_iff (m : Memory) : ftrOk m = true ↔ m.read 622 = 0xFF ∧ m.read 623 = 0xFE := by
  simp [ftrOk]

end Sys2Proof.Machine
end

