-- ==== Sys2Proof/Laws/Decode.lean ====
section
/-!
SUPPORT. The fields of a command word, the packing of payload words, and what `decodeCommand` and `step` do with
the words at the front of the command port.
-/

namespace Sys2Proof

/-! ### Concatenation as a number -/

theorem toNat_append_eq {n m : Nat} (x : BitVec n) (y : BitVec m) : (x ++ y).toNat = x.toNat * 2 ^ m + y.toNat := by
  rw [BitVec.toNat_append, ← Nat.shiftLeft_add_eq_or_of_lt y.isLt, Nat.shiftLeft_eq]

theorem toNat_commandWord (opc : Byte) (imm : Half) :
    (commandWord opc imm).toNat = opc.toNat * 2 ^ 24 + imm.toNat := by
  show (opc ++ ((0x00 : Byte) ++ imm)).toNat = _
  rw [toNat_append_eq, toNat_append_eq]
  simp

theorem toNat_packWord (b0 b1 b2 b3 : Byte) :
    (packWord b0 b1 b2 b3).toNat = b0.toNat * 2 ^ 24 + b1.toNat * 2 ^ 16 + b2.toNat * 2 ^ 8 + b3.toNat := by
  show (((b0 ++ b1) ++ b2) ++ b3).toNat = _
  rw [toNat_append_eq, toNat_append_eq, toNat_append_eq]
  omega

theorem toNat_field {n : Nat} (w : Word) (lo : Nat) : (w.extractLsb' lo n).toNat = w.toNat / 2 ^ lo % 2 ^ n := by
  rw [BitVec.extractLsb'_toNat, Nat.shiftRight_eq_div_pow]

/-! ### Fields of an encoded command word (R72) -/

theorem opcOf_commandWord (opc : Byte) (imm : Half) : opcOf (commandWord opc imm) = opc := by
  apply BitVec.eq_of_toNat_eq
  rw [opcOf, toNat_field, toNat_commandWord]
  omega

theorem rsvOf_commandWord (opc : Byte) (imm : Half) : rsvOf (commandWord opc imm) = 0x00 := by
  apply BitVec.eq_of_toNat_eq
  rw [rsvOf, toNat_field, toNat_commandWord, show (0x00 : Byte).toNat = 0 from rfl]
  omega

theorem immOf_commandWord (opc : Byte) (imm : Half) : immOf (commandWord opc imm) = imm := by
  apply BitVec.eq_of_toNat_eq
  rw [immOf, toNat_field, toNat_commandWord]
  omega

/-! ### Payload words (R75) -/

theorem wordBytes_packWord (b0 b1 b2 b3 : Byte) : wordBytes (packWord b0 b1 b2 b3) = [b0, b1, b2, b3] := by
  simp only [wordBytes, List.cons.injEq, and_true]
  refine ⟨?_, ?_, ?_, ?_⟩ <;>
  · apply BitVec.eq_of_toNat_eq
    rw [toNat_field, toNat_packWord]
    omega

theorem length_packBytes : ∀ c : List Byte, (packBytes c).length = (c.length + 3) / 4
  | [] => rfl
  | [_] => by simp [packBytes]
  | [_, _] => by simp [packBytes]
  | [_, _, _] => by simp [packBytes]
  | _ :: _ :: _ :: _ :: c => by
    have := length_packBytes c
    simp only [packBytes, List.length_cons]
    omega

theorem take_flatMap_packBytes : ∀ c : List Byte, ((packBytes c).flatMap wordBytes).take c.length = c
  | [] => rfl
  | [_] => by simp [packBytes, wordBytes_packWord]
  | [_, _] => by simp [packBytes, wordBytes_packWord]
  | [_, _, _] => by simp [packBytes, wordBytes_packWord]
  | _ :: _ :: _ :: _ :: c => by
    have := take_flatMap_packBytes c
    simp [packBytes, wordBytes_packWord, this]

/-- The chunk packed into payload words is the chunk read from them. -/
theorem chunkOf_packBytes (c : List Byte) : chunkOf c.length (packBytes c) = c := take_flatMap_packBytes c

theorem length_flatMap_wordBytes (p : List Word) : (p.flatMap wordBytes).length = 4 * p.length := by
  induction p with
  | nil => rfl
  | cons w p ih => rw [List.flatMap_cons, List.length_append, ih]; simp [wordBytes]; omega

/-- Payload byte `k` stands in word `k div 4` (R75). -/
theorem getElem?_flatMap_wordBytes (p : List Word) (k : Nat) :
    (p.flatMap wordBytes)[k]? = p[k / 4]?.bind fun w => (wordBytes w)[k % 4]? := by
  induction p generalizing k with
  | nil => simp
  | cons w p ih =>
    rw [List.flatMap_cons]
    by_cases h : k < 4
    · rw [List.getElem?_append_left (by simpa [wordBytes] using h), Nat.div_eq_of_lt h, Nat.mod_eq_of_lt h]
      rfl
    · rw [List.getElem?_append_right (by simp [wordBytes]; omega)]
      have h1 : k / 4 = (k - 4) / 4 + 1 := by omega
      have h2 : (k - 4) % 4 = k % 4 := by omega
      simp [wordBytes, ih, h1, h2]

/-! ### Reading one command -/

theorem decodeCommand_nil : decodeCommand [] = .idle := rfl

theorem decodeCommand_short {w : Word} {ws : List Word} (h : ws.length < payloadCount w) :
    decodeCommand (w :: ws) = .waiting := by
  simp [decodeCommand, h]

theorem decodeCommand_full {w : Word} {ws : List Word} (h : payloadCount w ≤ ws.length) :
    decodeCommand (w :: ws) =
      match decodeWord w (ws.take (payloadCount w)) with
      | .ok i      => .command i (ws.drop (payloadCount w))
      | .error why => .illegal (opcOf w) why (ws.drop (payloadCount w)) :=
  if_neg (Nat.not_lt.2 h)

/-- The same with the payload words named. -/
theorem decodeCommand_payload {w : Word} {p rest : List Word} (h : p.length = payloadCount w) :
    decodeCommand (w :: (p ++ rest)) =
      match decodeWord w p with
      | .ok i      => .command i rest
      | .error why => .illegal (opcOf w) why rest := by
  rw [decodeCommand_full (by simp [h]), List.take_append_of_le_length (by omega), List.take_of_length_le (by omega),
    List.drop_append_of_le_length (by omega), List.drop_eq_nil_of_le (by omega), List.nil_append]

/-! ### What a step does -/

namespace Machine

theorem step_idle {s : State} (h : s.nextCommand = .idle) : step s = .next s := by simp [step, h]

theorem step_waiting {s : State} (h : s.nextCommand = .waiting) : step s = .next s := by simp [step, h]

theorem step_command {s : State} {i : Instr} {rest : List Word} (h : s.nextCommand = .command i rest) :
    step s = exec i (s.consume rest) := by
  simp [step, h]

theorem step_illegal {s : State} {opc : Byte} {why : IllegalReason} {rest : List Word}
    (h : s.nextCommand = .illegal opc why rest) :
    step s = .next ((s.consume rest).respond opc .errIllegal 0 none) := by
  simp [step, h, answerIllegal]

/-- The state after a step: unchanged where no whole command stands on the port, else the command's words are
consumed and the command is performed or answered as illegal. -/
theorem step_cases {s t : State} (h : step s = .next t) :
    (t = s ∧ (s.nextCommand = .idle ∨ s.nextCommand = .waiting)) ∨
    (∃ i rest, s.nextCommand = .command i rest ∧ t = perform i (s.consume rest)) ∨
    (∃ opc why rest, s.nextCommand = .illegal opc why rest ∧
      t = (s.consume rest).respond opc .errIllegal 0 none) := by
  cases hn : s.nextCommand with
  | idle => rw [step_idle hn] at h; cases h; exact .inl ⟨rfl, .inl rfl⟩
  | waiting => rw [step_waiting hn] at h; cases h; exact .inl ⟨rfl, .inr rfl⟩
  | command i rest =>
    rw [step_command hn, exec_perform] at h; cases h; exact .inr (.inl ⟨i, rest, rfl, rfl⟩)
  | illegal opc why rest =>
    rw [step_illegal hn] at h; cases h; exact .inr (.inr ⟨opc, why, rest, rfl, rfl⟩)

/-- A step always answers a next state (R100). -/
theorem step_advance (s : State) : step s = .next (advance s) := by
  have : ∃ t, step s = .next t := by
    cases hn : s.nextCommand with
    | idle => exact ⟨_, step_idle hn⟩
    | waiting => exact ⟨_, step_waiting hn⟩
    | command i rest => exact ⟨_, by rw [step_command hn, exec_perform]⟩
    | illegal opc why rest => exact ⟨_, step_illegal hn⟩
  obtain ⟨t, ht⟩ := this
  rw [advance, ht]

theorem advance_of_step {s t : State} (h : step s = .next t) : advance s = t := by
  rw [step_advance] at h; exact Host.Outcome.next.inj h

theorem advance_command {s : State} {i : Instr} {rest : List Word} (h : s.nextCommand = .command i rest) :
    advance s = { perform i s with cmdPort := rest } :=
  advance_of_step (by rw [step_command h, exec_perform, perform_consume])

/-- The first of several steps, where the host takes its response. -/
theorem runSteps_succ {s t : State} {r : Rsp} (h : advance s = t) (hr : t.rspPort = some r) (n : Nat) :
    runSteps (n + 1) s =
      (r :: (runSteps n { t with rspPort := none }).1, (runSteps n { t with rspPort := none }).2) := by
  rw [runSteps, h, takeResponse_some hr]

end Machine

/-- What a host sends for a command always has a binary form (R79). -/
theorem binaryForm_wellFormed (i : Instr) : i.binaryForm.wellFormed = true := by
  cases i <;> simp [Instr.binaryForm, Instr.wellFormed]

/-- A command with a binary form is sent as itself. -/
theorem binaryForm_of_wellFormed {i : Instr} (h : i.wellFormed = true) : i.binaryForm = i := by
  cases i <;> simp_all [Instr.binaryForm, Instr.wellFormed]

end Sys2Proof
end

