-- ==== Sys2Proof/Laws/Extract.lean ====
section
/-!
SUPPORT. The numbers the extraction primitives assemble, tables, the digits of the device identifier, and what
EXTRACT and the checksum read.
-/

namespace Sys2Proof.Machine

/-! ### Primitives as numbers (R12, R151 to R155) -/

theorem toNat_u16le (fb : Memory) (o : Nat) :
    (u16le fb o).toNat = (fb.read o).toNat + 256 * (fb.read (o + 1)).toNat := by
  show (fb.read (o + 1) ++ fb.read o).toNat = _
  rw [toNat_append_eq]
  omega

theorem toNat_u16be (fb : Memory) (o : Nat) :
    (u16be fb o).toNat = 256 * (fb.read o).toNat + (fb.read (o + 1)).toNat := by
  show (fb.read o ++ fb.read (o + 1)).toNat = _
  rw [toNat_append_eq]
  omega

theorem toNat_u24be (fb : Memory) (o : Nat) :
    (u24be fb o).toNat =
      ((fb.read o).toNat * 256 + (fb.read (o + 1)).toNat) * 256 + (fb.read (o + 2)).toNat := by
  show ((((0x00 : Byte) ++ fb.read o) ++ fb.read (o + 1)) ++ fb.read (o + 2)).toNat = _
  rw [toNat_append_eq, toNat_append_eq, toNat_append_eq]
  simp

theorem toNat_u40be (fb : Memory) (o : Nat) :
    (u40be fb o).toNat =
      ((((fb.read o).toNat * 256 + (fb.read (o + 1)).toNat) * 256 + (fb.read (o + 2)).toNat) * 256 +
        (fb.read (o + 3)).toNat) * 256 + (fb.read (o + 4)).toNat := by
  have h0 := (fb.read o).isLt
  have h1 := (fb.read (o + 1)).isLt
  have h2 := (fb.read (o + 2)).isLt
  have h3 := (fb.read (o + 3)).isLt
  have h4 := (fb.read (o + 4)).isLt
  rw [u40be, BitVec.toNat_setWidth, toNat_append_eq, toNat_append_eq, toNat_append_eq, toNat_append_eq]
  omega

theorem u24be_lt (fb : Memory) (o : Nat) : (u24be fb o).toNat < 2 ^ 24 := by
  have h0 := (fb.read o).isLt
  have h1 := (fb.read (o + 1)).isLt
  have h2 := (fb.read (o + 2)).isLt
  rw [toNat_u24be]
  omega

theorem u40be_lt (fb : Memory) (o : Nat) : (u40be fb o).toNat < 2 ^ 40 := by
  have h0 := (fb.read o).isLt
  have h1 := (fb.read (o + 1)).isLt
  have h2 := (fb.read (o + 2)).isLt
  have h3 := (fb.read (o + 3)).isLt
  have h4 := (fb.read (o + 4)).isLt
  rw [toNat_u40be]
  omega

/-- A value below 2^40 in 64 bits is not negative as a signed integer (R155). -/
theorem toInt_nonneg_of_lt {v : Dword} (h : v.toNat < 2 ^ 40) : 0 ≤ v.toInt := by
  rw [BitVec.toInt_eq_toNat_of_lt (by omega)]
  omega

/-! ### Tables -/

@[simp] theorem table_getElem {α : Type} (n : Nat) (f : Nat → α) (i : Nat) (h : i < n) : (table n f)[i] = f i := by
  simp [table]

/-! ### Digits (R161, R162) -/

theorem decDigitsAux_append (fuel v : Nat) (acc : List Nat) :
    decDigitsAux fuel v acc = decDigitsAux fuel v [] ++ acc := by
  induction fuel generalizing v acc with
  | zero => rfl
  | succ n ih =>
    simp only [decDigitsAux]
    split
    · rfl
    · rw [ih, ih (v / 10) [v % 10]]; simp

theorem decDigitsAux_fuel {f g v : Nat} (hf : v < f) (hg : v < g) :
    decDigitsAux f v [] = decDigitsAux g v [] := by
  induction f generalizing g v with
  | zero => omega
  | succ f ih =>
    obtain ⟨g, rfl⟩ : ∃ k, g = k + 1 := ⟨g - 1, by omega⟩
    simp only [decDigitsAux]
    split
    · rfl
    · rw [decDigitsAux_append, decDigitsAux_append g, ih (v := v / 10) (g := g) (by omega) (by omega)]

theorem decDigits_of_lt {v : Nat} (h : v < 10) : decDigits v = [v] := by simp [decDigits, decDigitsAux, h]

/-- The digits of `v` are those of `v / 10` and then `v % 10`. -/
theorem decDigits_of_ge {v : Nat} (h : 10 ≤ v) : decDigits v = decDigits (v / 10) ++ [v % 10] := by
  rw [decDigits, decDigitsAux, if_neg (by omega), decDigitsAux_append, decDigits,
    decDigitsAux_fuel (f := v) (g := v / 10 + 1) (by omega) (by omega)]

theorem decDigits_lt (v : Nat) : ∀ d ∈ decDigits v, d < 10 := by
  induction v using Nat.strong_induction_on with
  | _ v ih =>
    intro d hd
    by_cases h : v < 10
    · simp [decDigits_of_lt h] at hd; omega
    · rw [decDigits_of_ge (by omega), List.mem_append] at hd
      rcases hd with hd | hd
      · exact ih (v / 10) (by omega) d hd
      · simp at hd; omega

/-- `nd(v)` of R161. -/
theorem decDigits_length (v : Nat) : (decDigits v).length = if v = 0 then 1 else Nat.log 10 v + 1 := by
  induction v using Nat.strong_induction_on with
  | _ v ih =>
    by_cases h : v < 10
    · rw [decDigits_of_lt h, Nat.log_of_lt h]; simp
    · rw [decDigits_of_ge (by omega), List.length_append, ih (v / 10) (by omega), if_neg (by omega),
        if_neg (by omega), Nat.log_of_one_lt_of_le (by omega) (show 10 ≤ v by omega)]
      rfl

theorem decDigits_value (v : Nat) : (decDigits v).foldl (fun n d => n * 10 + d) 0 = v := by
  induction v using Nat.strong_induction_on with
  | _ v ih =>
    by_cases h : v < 10
    · simp [decDigits_of_lt h]
    · rw [decDigits_of_ge (by omega), List.foldl_append, ih (v / 10) (by omega)]
      simp; omega

/-- A digit below 10^k has at most k digits. -/
theorem decDigits_length_le {v k : Nat} (hk : 1 ≤ k) (h : v < 10 ^ k) : (decDigits v).length ≤ k := by
  rw [decDigits_length]
  split
  · exact hk
  · have := Nat.log_lt_of_lt_pow (b := 10) (by assumption) h
    omega

theorem toNat_digitChar {d : Nat} (h : d < 10) : (digitChar d).toNat = 0x30 + d := by
  simp [digitChar]; omega

theorem decFormat_length (w v : Nat) : (decFormat w v).length = max w (decDigits v).length := by
  simp only [decFormat, List.length_append, List.length_replicate, List.length_map]
  omega

theorem decFormat_digits (w v : Nat) : ∀ c ∈ decFormat w v, 0x30 ≤ c.toNat ∧ c.toNat ≤ 0x39 := by
  intro c hc
  rcases List.mem_append.1 hc with hc | hc
  · rw [(List.mem_replicate.1 hc).2, toNat_digitChar (by omega)]; omega
  · obtain ⟨d, hd, rfl⟩ := List.mem_map.1 hc
    have := decDigits_lt v d hd
    rw [toNat_digitChar this]; omega

/-- The number a string of digits is read as. -/
def readDigits (cs : List Byte) : Nat := cs.foldl (fun n c => n * 10 + (c.toNat - 0x30)) 0

theorem foldl_digitChar (ds : List Nat) (h : ∀ d ∈ ds, d < 10) (n : Nat) :
    (ds.map digitChar).foldl (fun n c => n * 10 + (c.toNat - 0x30)) n = ds.foldl (fun n d => n * 10 + d) n := by
  induction ds generalizing n with
  | nil => rfl
  | cons d ds ih =>
    rw [List.map_cons, List.foldl_cons, List.foldl_cons, ih (fun d hd => h d (by simp [hd])),
      toNat_digitChar (h d (by simp))]
    simp

theorem decFormat_value (w v : Nat) : readDigits (decFormat w v) = v := by
  have hz : ∀ k, (List.replicate k (digitChar 0)).foldl (fun n c => n * 10 + (c.toNat - 0x30)) 0 = 0 := by
    intro k
    induction k with
    | zero => rfl
    | succ k ih => rw [List.replicate_succ, List.foldl_cons]; exact ih
  rw [readDigits, decFormat, List.foldl_append, hz, foldl_digitChar _ (decDigits_lt v), decDigits_value]

theorem decFormat_serial_length (s : Half) : (decFormat 5 s.toNat).length = 5 := by
  have := decDigits_length_le (v := s.toNat) (k := 5) (by omega) (by have := s.isLt; omega)
  rw [decFormat_length]; omega

theorem decFormat_type_length (d : Byte) : (decFormat 2 d.toNat).length = if d.toNat ≤ 99 then 2 else 3 := by
  have h3 := decDigits_length_le (v := d.toNat) (k := 3) (by omega) (by have := d.isLt; omega)
  rw [decFormat_length]
  split
  · next h =>
    have := decDigits_length_le (v := d.toNat) (k := 2) (by omega) (by omega)
    omega
  · next h =>
    have : 2 ≤ Nat.log 10 d.toNat := (Nat.le_log_iff_pow_le (by omega) (by omega)).2 (by omega)
    rw [decDigits_length, if_neg (by omega)] at h3 ⊢
    omega

theorem deviceIdOf_length (d : Byte) (s : Half) :
    (deviceIdOf d s).length = if d.toNat ≤ 99 then 7 else 8 := by
  rw [deviceIdOf, List.length_append, decFormat_type_length, decFormat_serial_length]
  split <;> rfl

/-! ### The checksum -/

theorem sum_map_range (f : Nat → Nat) (n : Nat) : ((List.range n).map f).sum = ∑ a ∈ Finset.range n, f a := by
  induction n with
  | zero => rfl
  | succ n ih => rw [List.range_succ, Finset.sum_range_succ, List.map_append, List.sum_append, ih]; simp

theorem toNat_checksum (fb : Memory) :
    (checksum fb).toNat = (∑ a ∈ Finset.range 624, (fb.read a).toNat) % 256 := by
  rw [checksum, sum_map_range, BitVec.toNat_ofNat, Nat.mod_mod]

theorem checksum_congr {m n : Memory} (h : ∀ a, a < 624 → m.read a = n.read a) : checksum m = checksum n := by
  apply BitVec.eq_of_toNat_eq
  rw [toNat_checksum, toNat_checksum, Finset.sum_congr rfl]
  intro a ha
  rw [h a (by simpa using ha)]

/-- One byte changed changes the sum by the difference of its values. -/
theorem sum_write (fb : Memory) (a : Nat) (b : Byte) (h : a < 624) :
    (∑ x ∈ Finset.range 624, ((fb.write a b).read x).toNat) + (fb.read a).toNat =
      (∑ x ∈ Finset.range 624, (fb.read x).toNat) + b.toNat := by
  have ha : a ∈ Finset.range 624 := by simpa using h
  rw [← Finset.add_sum_erase _ _ ha, ← Finset.add_sum_erase (Finset.range 624) (fun x => (fb.read x).toNat) ha,
    read_write_self, Finset.sum_congr rfl (g := fun x => (fb.read x).toNat)]
  · omega
  · intro x hx
    rw [read_write_ne _ _ (Finset.ne_of_mem_erase hx)]

/-! ### What EXTRACT reads -/

/-- Under the machine's LAYOUT, EXTRACT reads only bytes of the frame that the layout assigns: not byte 487, and none
above 621. -/
theorem extract_congr {m n : Memory} (h : ∀ a, a ≤ 621 → a ≠ 487 → m.read a = n.read a) :
    extract Config.layout m = extract Config.layout n := by
  have ht : ∀ {α : Type} (k : Nat) (f g : Nat → α), (∀ i, i < k → f i = g i) → table k f = table k g := by
    intro α k f g hfg
    exact Vector.ext fun i hi => by simp [hfg i hi]
  simp only [extract, extractTimestamp, Config.layout, Config.layoutGem625]
  congr 1
  all_goals first
    | (refine ht _ _ _ fun i hi => ?_
       simp only [u40be, u24be, u16be]
       rw [h _ (by omega) (by omega), h _ (by omega) (by omega)]
       try rw [h _ (by omega) (by omega)]
       try rw [h _ (by omega) (by omega), h _ (by omega) (by omega)])
    | simp [u16le, u8, u24be, h]

end Sys2Proof.Machine
end

