-- ==== Sys2Proof/Laws/PerInstr.lean ====
section
/-!
SUPPORT. Statements made for every command by one lemma per constructor of Instr.
-/

namespace Sys2Proof.Laws.EncodedHead

/-- A well-formed command's encoding starts with a command word that carries its opcode, RSV = 0x00, and as many
payload words as R76 counts for it. -/
def Statement (i : Instr) : Prop :=
  i.wellFormed = true →
    ∃ w p, encode i = w :: p ∧ opcOf w = i.opcode ∧ rsvOf w = 0x00 ∧ p.length = payloadCount w

theorem append (chunk : List Byte) : Statement (.append chunk) := by
  intro h
  refine ⟨_, _, rfl, opcOf_commandWord _ _, rsvOf_commandWord _ _, ?_⟩
  have h' : chunk.length ≤ 65535 := by simpa [Instr.wellFormed] using h
  rw [payloadCount, opcOf_commandWord, if_pos rfl, immOf_commandWord, length_packBytes, BitVec.toNat_ofNat,
    Nat.mod_eq_of_lt (by omega)]

theorem reset : Statement .reset :=
  fun _ => ⟨_, _, rfl, opcOf_commandWord _ _, rsvOf_commandWord _ _, by simp [payloadCount, opcOf_commandWord]⟩

theorem isComplete : Statement .isComplete :=
  fun _ => ⟨_, _, rfl, opcOf_commandWord _ _, rsvOf_commandWord _ _, by simp [payloadCount, opcOf_commandWord]⟩

theorem isEmpty : Statement .isEmpty :=
  fun _ => ⟨_, _, rfl, opcOf_commandWord _ _, rsvOf_commandWord _ _, by simp [payloadCount, opcOf_commandWord]⟩

theorem outstanding : Statement .outstanding :=
  fun _ => ⟨_, _, rfl, opcOf_commandWord _ _, rsvOf_commandWord _ _, by simp [payloadCount, opcOf_commandWord]⟩

theorem decode : Statement .decode :=
  fun _ => ⟨_, _, rfl, opcOf_commandWord _ _, rsvOf_commandWord _ _, by simp [payloadCount, opcOf_commandWord]⟩

theorem peek (idx : Nat) : Statement (.peek idx) :=
  fun _ => ⟨_, _, rfl, opcOf_commandWord _ _, rsvOf_commandWord _ _, by simp [payloadCount, opcOf_commandWord]⟩

end Sys2Proof.Laws.EncodedHead
end

