-- ==== Sys2Proof/Tests/Slice0.lean ====
section
/-!
SUPPORT. Tests. Expected values are those of 95_test_vectors.md, by the name it gives each vector, or are worked out by
hand from the rule named. Then one witness for the hypotheses of each statement of Certificates/Slice0/Obligations.lean
that has hypotheses.
-/

namespace Sys2Proof.Tests

open Sys2Proof Sys2Proof.Machine

/-! ### Helpers -/

/-- The reference frame F0 (95_test_vectors.md section 2): its bytes that are not 0x00. -/
def f0 : Memory :=
  [(0, 0xFE), (1, 0xFF), (2, 0x05), (3, 0xB0), (4, 0x04), (9, 0x01)] ++
  [(240, 0xFF), (241, 0xFF), (242, 0xFF), (243, 0xFF), (244, 0xFF)] ++
  [(245, 0x01), (246, 0x02), (247, 0x03), (248, 0x04), (249, 0x05), (485, 0x42), (488, 0x05)] ++
  [(489, 0x01), (490, 0xF4), (583, 0xFF), (584, 0xFF), (585, 0x01), (590, 0x2A)] ++
  [(597, 0xFF), (598, 0xFF), (599, 0xFF), (601, 0x2D), (614, 0x01)] ++
  [(616, 0x18), (617, 0x0B), (618, 0x0B), (619, 0x0C), (620, 0x22), (621, 0x38)] ++
  [(622, 0xFF), (623, 0xFE), (624, 0xE2)]

/-- A state with the given frame bytes and cursor, and empty ports. -/
def st (fb : Memory) (cur : Cursor) : State := { State.reset with fb, cur }

/-- A header and nothing else. -/
def hdr3 : Memory := [(0, 0xFE), (1, 0xFF), (2, 0x05)]

/-- The response word a command is answered with. -/
def word (i : Instr) (s : State) : Option Word := (perform i s).rspPort.map Rsp.head

/-- The response words and the cursor after one step on the given port words. -/
def stepWords (ws : List Word) (s : State) : Option (List Word × Nat × List Word) :=
  match step { s with cmdPort := ws } with
  | .next t    => some (t.rspWords, t.cur.val, t.cmdPort)
  | .fault f   => nomatch f
  | .refused _ => none

/-- A timestamp from the six bytes of R167. -/
def stamp (y mo d h mi s : Byte) : Timestamp := ⟨BitVec.ofNat 16 (2000 + y.toNat), mo, d, h, mi, s⟩

/-! ### WellFormed: each check refuses an ill-formed term -/

theorem test_wellFormed_chunk_too_long : (Instr.append (List.replicate 65536 0x00)).wellFormed = false := by
  simp only [Instr.wellFormed, List.length_replicate]; decide

theorem test_wellFormed_index_too_large : (Instr.peek 65536).wellFormed = false := by decide

/-! ### Decoding: words written out from R72, R74, R75 -/

/-- APPEND 5, 11 22 33 44 55: OPC 0x01, LEN 5, payload words of R75 with one pad byte 0xAA. -/
theorem test_decode_append :
    decodeCommand [0x01000005, 0x11223344, 0x55AAAAAA, 0x02000000] =
      .command (.append [0x11, 0x22, 0x33, 0x44, 0x55]) [0x02000000] := by decide

theorem test_decode_reset : decodeCommand [0x02000000] = .command .reset [] := by decide
theorem test_decode_isComplete : decodeCommand [0x03000000] = .command .isComplete [] := by decide
theorem test_decode_isEmpty : decodeCommand [0x04000000] = .command .isEmpty [] := by decide
theorem test_decode_outstanding : decodeCommand [0x05000000] = .command .outstanding [] := by decide
theorem test_decode_decode : decodeCommand [0x06000000] = .command .decode [] := by decide
theorem test_decode_peek : decodeCommand [0x0700FFFF] = .command (.peek 65535) [] := by decide

/-- V-E7 to V-E11. -/
theorem test_decode_illegal :
    [0x00000000, 0x08000000, 0xFF000000, 0x02000001, 0x06800000].map (fun w => decodeCommand [w]) =
      [.illegal 0x00 .opcode [], .illegal 0x08 .opcode [], .illegal 0xFF .opcode [],
       .illegal 0x02 .operand [], .illegal 0x06 .reserved []] := by decide

theorem test_encode_append :
    encode (.append [0xFE, 0xFF, 0x05]) = [0x01000003, 0xFEFF0500] ∧ encode (.peek 2) = [0x07000002] := by decide

theorem test_decodeTableWord :
    decodeTableWord 32 0x01000000 = some (.append []) ∧ decodeTableWord 32 0x01000003 = some (.append [0, 0, 0]) ∧
    decodeTableWord 32 0x05000000 = some .outstanding ∧ decodeTableWord 32 0x07000005 = some (.peek 5) ∧
    decodeTableWord 32 0x02000001 = none := by decide

theorem test_withFetchWord_runs_first :
    (match step (State.reset.withFetchWord 32 0x01000002) with
      | .next t    => (t.rspWords, t.cur.val, t.cmdPort)
      | .fault f   => nomatch f
      | .refused _ => ([], 0, [])) = ([0x01000002], 2, []) := by decide

/-! ### One step on the port -/

/-- V-E12: an illegal APPEND drains its two payload words and moves nothing. -/
theorem test_step_drains_illegal_append :
    stepWords [0x01010005, 0x11223344, 0x55000000, 0x05000000] State.reset =
      some ([0x01090000], 0, [0x05000000]) := by decide

/-- R76, R231: no command, or a payload that has not all arrived, leaves everything as it is. -/
theorem test_step_waits :
    stepWords [] State.reset = some ([], 0, []) ∧
    stepWords [0x01000005, 0x11223344] State.reset = some ([], 0, [0x01000005, 0x11223344]) := by decide

/-- R212: the host's moves. It may not issue a second command, two at once, or one while a response is pending; an illegal
word is one command. -/
theorem test_host_moves :
    (State.reset.issue (encode .decode)).isSome = true ∧ (State.reset.issue [0x08000000]).isSome = true ∧
    State.reset.issue (encode .decode ++ encode .reset) = none ∧ State.reset.issue [0x01000001] = none ∧
    ({ State.reset with cmdPort := [0x06000000] } : State).issue (encode .reset) = none ∧
    ({ State.reset with rspPort := some ⟨0x02, .ok, 0, none⟩ } : State).issue (encode .reset) = none := by decide

/-- R79: a PEEK above 65535 is answered ERR_INDEX, also where its low 16 bits name a live byte. -/
theorem test_host_peek_without_binary_form :
    (hostExchange (Instr.peek 65538).portWords (st hdr3 3)).map (fun p => p.1.head) = some 0x07080000 := by decide

/-! ### Commands, at most two each -/

/-- V-A10, V-A11, V-A12, V-A13: the header test, and bytes kept when it fails. -/
theorem test_append_header :
    word (.append [0x05]) (st [(1, 0xFF)] 2) = some 0x01030003 ∧
    (perform (.append [0x05]) (st [(1, 0xFF)] 2)).fb.read 2 = 0x05 ∧
    word (.append [0x12, 0x34]) (st [(1, 0xFF), (2, 0x05)] 3) = some 0x01030005 ∧
    word (.append [0xFE, 0xFF, 0x05]) (st [] 0) = some 0x01000003 ∧
    word (.append [0xFE, 0xFF, 0x04]) (st [] 0) = some 0x01030003 := by decide

/-- V-A1, V-A2, V-A6, V-A7, V-A8: the two rejections and their boundary. -/
theorem test_append_rejects :
    word (.append []) (st [] 0) = some 0x01010000 ∧ word (.append []) (st f0 625) = some 0x01010271 ∧
    word (.append [0xE2]) (st hdr3 624) = some 0x01000271 ∧
    perform (.append [0xE2, 0x00]) (st hdr3 624) =
      { st hdr3 624 with rspPort := some ⟨0x01, .errOverflow, 624, none⟩ } ∧
    word (.append [0x00]) (st [] 0) = some 0x01000001 := by decide

/-- V-R1. -/
theorem test_reset :
    word .reset (st hdr3 300) = some 0x02000000 ∧ (perform .reset (st hdr3 300)).fb = [] ∧
    word .outstanding (perform .reset (st hdr3 300)) = some 0x05000271 := by decide

/-- V-Q1 to V-Q4. -/
theorem test_queries :
    [0, 1, 624, 625].map (fun c => (word .isComplete (st [] c), word .isEmpty (st [] c), word .outstanding (st [] c))) =
      [(some 0x03000000, some 0x04000001, some 0x05000271), (some 0x03000000, some 0x04000000, some 0x05000270),
       (some 0x03000000, some 0x04000000, some 0x05000001), (some 0x03000001, some 0x04000000, some 0x05000000)] := by
  decide

/-- V-P1 to V-P4. -/
theorem test_peek :
    word (.peek 624) (st f0 625) = some 0x070000E2 ∧ word (.peek 625) (st f0 625) = some 0x07080000 ∧
    word (.peek 2) (st hdr3 3) = some 0x07000005 ∧ word (.peek 3) (st hdr3 3) = some 0x07080000 ∧
    word (.peek 65535) (st f0 625) = some 0x07080000 := by decide

/-- V-D1: the Reading of F0, by some of the payload words of section 2 of 95_test_vectors.md. -/
theorem test_decode_f0 :
    ((perform .decode (st f0 625)).rspWords.head?,
      [1, 3, 98, 99, 101, 195, 199, 201, 202, 203, 297, 299, 301, 307, 309, 323, 325, 327, 329, 331, 333, 335].map
        fun k => (perform .decode (st f0 625)).rspWords[k + 1]?) =
    (some 0x06000000,
      [some 0x000004B0, some 0x00000001, some 0x00000001, some 0x02030405, some 0x00000000, some 0x00000042,
       some 0x00000007, some 0x30363600, some 0x00000000, some 0x000001F4, some 0x0000FFFF, some 0x00010000,
       some 0x0000002A, some 0x00FFFFFF, some 0x0000002D, some 0x00000100, some 0x000007E8, some 0x0000000B,
       some 0x0000000B, some 0x0000000C, some 0x00000022, some 0x00000038]) := by decide +kernel

/-- V-D2, V-D3, V-D5, V-D10, V-D11, V-C2: one frame for each check that fails. -/
theorem test_decode_fails :
    word .decode (st f0 624) = some 0x06040000 ∧
    word .decode (st (f0.write 622 0x00) 625) = some 0x06050000 ∧
    word .decode (st (f0.write 624 0xE3) 625) = some 0x06060000 ∧
    word .decode (st ((f0.write 2 0x06).write 622 0x00) 625) = some 0x06030000 ∧
    word .decode (st (hdr3 ++ [(622, 0xFF), (623, 0xFE), (624, 0xFF)]) 625) = some 0x06070000 ∧
    word .decode (st ((f0.writeList 616 [0x17, 0x02, 0x1D, 0x00, 0x00, 0x00]).write 624 0x84) 625) =
      some 0x06070000 := by decide +kernel

/-- P3 of 95_test_vectors.md in little (R103, R214): the rejected chunk leaves no trace in the result of the run. -/
theorem test_runResult :
    runResult [.append [0xFE], .append (List.replicate 625 0x00), .peek 1, .append [0xFF]] State.reset =
      ([⟨0x01, .ok, 1, none⟩, ⟨0x01, .errOverflow, 1, none⟩, ⟨0x07, .errIndex, 0, none⟩, ⟨0x01, .ok, 2, none⟩],
        2, [0xFE, 0xFF]) := by decide +kernel

/-! ### Parts of DECODE -/

/-- V-X1 to V-X13. -/
theorem test_primitives :
    u8 [(0, 0xFF)] 0 = 255 ∧ u16le [(0, 0xB0), (1, 0x04)] 0 = 1200 ∧ u16le [(0, 0x42)] 0 = 66 ∧
    u16le [(1, 0x42)] 0 = 16896 ∧ u16be [(0, 0x01), (1, 0xF4)] 0 = 500 ∧ u16be [(0, 0xFF), (1, 0xFF)] 0 = 65535 ∧
    u24be [(0, 0x01)] 0 = 65536 ∧ u24be [(0, 0xFF), (1, 0xFF), (2, 0xFF)] 0 = 16777215 ∧ u24be [(2, 0x2A)] 0 = 42 ∧
    u40be [(4, 0x01)] 0 = 1 ∧
    u40be [(0, 0xFF), (1, 0xFF), (2, 0xFF), (3, 0xFF), (4, 0xFF)] 0 = 1099511627775 ∧
    u40be [(0, 0x01), (1, 0x02), (2, 0x03), (3, 0x04), (4, 0x05)] 0 = 4328719365 ∧
    u40be [(0, 0x80)] 0 = 549755813888 := by decide

/-- V-I1 to V-I4, with their ID_ASCII values. -/
theorem test_identifier :
    asciiValue (deviceIdOf 5 66) = 0x3035303030363600 ∧ asciiValue (deviceIdOf 0 0) = 0x3030303030303000 ∧
    asciiValue (deviceIdOf 99 12345) = 0x3939313233343500 ∧
    asciiValue (deviceIdOf 255 65535) = 0x3235353635353335 := by decide +kernel

/-- V-C1 to V-C14. -/
theorem test_calendar :
    [stamp 24 11 11 12 34 56, stamp 23 2 29 0 0 0, stamp 24 2 29 0 0 0, stamp 100 2 29 0 0 0, stamp 24 13 1 0 0 0,
     stamp 24 4 31 0 0 0, stamp 24 1 1 24 0 0, stamp 24 1 1 0 60 0, stamp 24 1 1 0 0 60, stamp 24 0 1 0 0 0,
     stamp 24 1 0 0 0 0, stamp 0 2 29 0 0 0, stamp 200 2 29 0 0 0, stamp 255 12 31 23 59 59].map calValid =
    [true, false, true, false, false, false, false, false, false, false, false, true, false, true] := by decide

/-- P2 of 95_test_vectors.md, its first lines and its words; R83's refusal of a wrong length; R84. -/
theorem test_assembler :
    (Asm.program ["APPEND 2, FE, FF     ; comment".toList, "  APPEND 1, 06".toList, "PEEK 0x2".toList, "RESET".toList,
      "".toList, "APPEND 0,".toList]).map Asm.words =
      some [0x01000002, 0xFEFF0000, 0x01000001, 0x06000000, 0x07000002, 0x02000000, 0x01000000] ∧
    Asm.program ["APPEND 3, FE, FF".toList] = none ∧
    Asm.program [".bytes H = FE, FF, 05, 07".toList, "FEED H[1..2]".toList, "APPEND 1, H[3..3]".toList,
      "DECRST".toList] = some [.append [0xFF, 0x05], .append [0x07], .decode, .reset] := by decide

/-! ### Witnesses: the hypotheses of each statement are met together -/

theorem witness_EncodedCommandDecodesBack :
    [Instr.append [0x01], .reset, .isComplete, .isEmpty, .outstanding, .decode, .peek 65535].all Instr.wellFormed = true := by
  decide

theorem witness_PayloadCarriesChunkBytes :
    (0x01000005 : Word).extractLsb' 24 8 = 0x01#8 ∧ (0x01000005 : Word).extractLsb' 16 8 = 0x00#8 ∧
    [(0x11223344 : Word), 0x55000000].length = (((0x01000005 : Word).extractLsb' 0 16).toNat + 3) / 4 ∧
    4 < ((0x01000005 : Word).extractLsb' 0 16).toNat := by decide

/-- One word for each clause: 0x01 with its payload, 0x02..0x06 with IMM 0, 0x07, and the ends of the unassigned
opcodes. -/
theorem witness_OpcodeMapDecodes :
    [(0x01000004 : Word), 0x02000000, 0x03000000, 0x04000000, 0x05000000, 0x06000000, 0x07000271, 0x00000000,
      0x08000000, 0xFF000000].all (fun w => w.extractLsb' 16 8 = 0x00#8) = true ∧
    [(0x02000000 : Word), 0x03000000, 0x04000000, 0x05000000, 0x06000000].all
      (fun w => w.extractLsb' 0 16 = 0x0000#16) = true ∧
    (((0x01000004 : Word).extractLsb' 0 16).toNat + 3) / 4 ≤ [(0x11223344 : Word)].length ∧
    0x08 ≤ ((0x08000000 : Word).extractLsb' 24 8).toNat := by decide

/-- A word that fails (a), one that fails (b) and drains two words, one that fails (c), and a legal one. -/
theorem witness_IllegalWordsAnswered :
    (opcOf 0x08000000).toNat > 0x07 ∧
    (rsvOf 0x01010005 ≠ 0x00 ∧ payloadCount 0x01010005 = 2 ∧ 2 ≤ [(0x11223344 : Word), 0x55000000].length) ∧
    (0x02 ≤ (opcOf 0x06000001).toNat ∧ (opcOf 0x06000001).toNat ≤ 0x06 ∧ immOf 0x06000001 ≠ 0x0000) ∧
    (opcOf 0x07000001 = 0x07 ∧ rsvOf 0x07000001 = 0x00) := by decide

theorem witness_EveryCommandAnsweredOnce :
    ({ State.reset with cmdPort := [0x01000001, 0xFE000000] } : State).cmdPort = 0x01000001 :: [0xFE000000] ∧
    payloadCount 0x01000001 ≤ [(0xFE000000 : Word)].length := by decide

theorem witness_StepPerformsDecodedCommand :
    decodeCommand ({ State.reset with cmdPort := [0x05000000, 0x02000000] } : State).cmdPort =
      .command .outstanding [0x02000000] := by decide

theorem witness_IncompleteCommandWaits :
    State.reset.cmdPort = [] ∧
    (∃ w ws, ({ State.reset with cmdPort := [0x01000001] } : State).cmdPort = w :: ws ∧
      w.extractLsb' 24 8 = 0x01#8 ∧ ws.length < ((w.extractLsb' 0 16).toNat + 3) / 4) :=
  ⟨rfl, 0x01000001, [], rfl, by decide, by decide⟩

theorem witness_PortStepsRefineAbstractRun :
    ({ State.reset with cmdPort := [0x01000002, 0xFEFF0000, 0x05000000, 0x06000000] } : State).rspPort = none ∧
    (∀ i ∈ [Instr.append [0xFE, 0xFF], .outstanding], i.wellFormed = true) ∧
    ({ State.reset with cmdPort := [0x01000002, 0xFEFF0000, 0x05000000, 0x06000000] } : State).cmdPort =
      [Instr.append [0xFE, 0xFF], .outstanding].flatMap encode ++ [0x06000000] := by decide

theorem witness_HostExchangePerformsCommand :
    (st hdr3 3).cmdPort = [] ∧ (st hdr3 3).rspPort = none := by decide

theorem witness_HostWaitsForEachResponse :
    (st hdr3 3).issue [0x01000001, 0xFE000000] = some { st hdr3 3 with cmdPort := [0x01000001, 0xFE000000] } := by decide

theorem witness_HostSessionRefinesAbstractRun :
    (st hdr3 3).cmdPort = [] ∧ (st hdr3 3).rspPort = none ∧
    (hostSession [.outstanding, .reset] (st hdr3 3)).map (fun p => p.1.map Rsp.head) =
      some [0x0500026E, 0x02000000] := by decide

/-- A state that meets the invariant and takes a step. -/
theorem witness_StepKeepsInvariant : ∃ s t : State, s.Inv ∧ s.cmdPort = [0x01000001, 0xFE000000] ∧ step s = .next t :=
  ⟨{ State.reset with cmdPort := [0x01000001, 0xFE000000] }, _,
    ⟨by decide, fun r h => by simp [State.reset] at h⟩, rfl, rfl⟩

/-- The clauses of AppendEffect at their boundaries: empty, 626 bytes in all, 625 bytes in all, 3 bytes in all. -/
theorem witness_AppendEffect :
    625 < (st hdr3 624).cur.val + [(0xE2 : Byte), 0x00].length ∧
    ([(0xE2 : Byte)] ≠ [] ∧ (st hdr3 624).cur.val + [(0xE2 : Byte)].length ≤ 625) ∧
    ([(0x05 : Byte)] ≠ [] ∧ 3 ≤ (st [] 2).cur.val + [(0x05 : Byte)].length) := by decide

theorem witness_CommandsWithoutBinaryForm :
    65535 < (List.replicate 65536 (0x00 : Byte)).length ∧ 626 ≤ (List.replicate 626 (0x00 : Byte)).length ∧
    (List.replicate 626 (0x00 : Byte)).length ≤ 65535 ∧ 65535 < 65536 := by
  simp only [List.length_replicate]; decide

theorem witness_RepeatedCommands :
    exec (.peek 0) (st hdr3 3) = .next (perform (.peek 0) (st hdr3 3)) ∧
    exec .reset (st hdr3 3) = .next (perform .reset (st hdr3 3)) ∧
    exec (.append [0x01]) (st hdr3 3) = .next (perform (.append [0x01]) (st hdr3 3)) ∧
    exec (.append [0x01]) (perform (.append [0x01]) (st hdr3 3)) =
      .next (perform (.append [0x01]) (perform (.append [0x01]) (st hdr3 3))) := ⟨rfl, rfl, rfl, rfl⟩

/-- One command that writes and one that does not. -/
theorem witness_OnlyAppendAndResetWrite :
    exec .outstanding (st hdr3 3) = .next (perform .outstanding (st hdr3 3)) ∧
    (∀ c, Instr.outstanding ≠ .append c) ∧ Instr.outstanding ≠ .reset ∧
    exec (.append [0x01]) (st hdr3 624) = .next (perform (.append [0x01]) (st hdr3 624)) :=
  ⟨rfl, by simp, by simp, rfl⟩

theorem witness_FailuresChangeNoState :
    ∃ r, exec (.peek 3) (st hdr3 3) = .next (perform (.peek 3) (st hdr3 3)) ∧
      (perform (.peek 3) (st hdr3 3)).rspPort = some r ∧ r.status ≠ .ok ∧
      ¬ ((∃ c, Instr.peek 3 = .append c) ∧ r.status = .errHeader) :=
  ⟨⟨0x07, .errIndex, 0, none⟩, rfl, rfl, by simp, by simp⟩

/-- Each clause of FailureCauses at a boundary of its cause, and the priorities of R203 where two causes meet. -/
theorem witness_FailureCauses :
    [((Instr.append [], st f0 625) : Instr × State), (.append [0xE2, 0x00], st hdr3 624), (.append [0x05], st [] 2),
      (.decode, st ((f0.write 2 0x06).write 622 0x00) 625), (.decode, st f0 624),
      (.decode, st ((f0.write 622 0x00).write 624 0x00) 625), (.decode, st (f0.write 624 0xE3) 625),
      (.decode, st (hdr3 ++ [(622, 0xFF), (623, 0xFE), (624, 0xFF)]) 625), (.peek 3, st hdr3 3)].map
      (fun p => (perform p.1 p.2).rspPort.map (·.status)) =
    [some .errEmpty, some .errOverflow, some .errHeader, some .errHeader, some .errIncomplete, some .errFooter,
      some .errChecksum, some .errField, some .errIndex] := by decide +kernel

/-- An APPEND at its boundary, a RESET and a command that leaves the live prefix, each with its next state. -/
theorem witness_LivePrefixIsAppendOnly :
    exec (.append [0xE2]) (st hdr3 624) = .next (perform (.append [0xE2]) (st hdr3 624)) ∧
    (st hdr3 624).cur.val + [(0xE2 : Byte)].length ≤ 625 ∧
    exec .reset (st hdr3 3) = .next (perform .reset (st hdr3 3)) ∧
    exec (.append [0xE2, 0x00]) (st hdr3 624) = .next (perform (.append [0xE2, 0x00]) (st hdr3 624)) ∧
    625 < (st hdr3 624).cur.val + [(0xE2 : Byte), 0x00].length := ⟨rfl, by decide, rfl, rfl, by decide⟩

theorem witness_HeaderVerdictHolds :
    3 ≤ (st hdr3 3).cur.val ∧ (∀ i ∈ [Instr.append [0x01], .decode], i ≠ .reset) := by decide

theorem witness_ChunkingDoesNotMatter :
    (st [] 0).cur.val = 0 ∧ (∀ c ∈ [[(0xFE : Byte)], [0xFF, 0x05]], c ≠ []) ∧
    1 ≤ [[(0xFE : Byte)], [0xFF, 0x05]].flatten.length ∧ [[(0xFE : Byte)], [0xFF, 0x05]].flatten.length ≤ 625 := by
  decide

/-- An APPEND answered ERR_HEADER, and a later APPEND and DECODE with their responses. -/
theorem witness_HeaderFailureLasts :
    exec (.append [0x00, 0x00, 0x00]) (st [] 0) = .next (perform (.append [0x00, 0x00, 0x00]) (st [] 0)) ∧
    (perform (.append [0x00, 0x00, 0x00]) (st [] 0)).rspPort = some ⟨0x01, .errHeader, 3, none⟩ ∧
    (runCommands [.append [0x01], .decode] (perform (.append [0x00, 0x00, 0x00]) (st [] 0))).1 =
      [⟨0x01, .errHeader, 4, none⟩, ⟨0x06, .errIncomplete, 0, none⟩] := ⟨rfl, by decide, by decide⟩

/-- Two different states that differ only in a stale byte. -/
theorem witness_StaleBytesNeverObserved :
    SameButStale (st hdr3 3) (st (hdr3 ++ [(10, 0x77)]) 3) ∧ st hdr3 3 ≠ st (hdr3 ++ [(10, 0x77)]) 3 :=
  ⟨⟨rfl, by decide, rfl, rfl⟩, by decide⟩

/-- The three clauses of MissedResetStaysDefined: CUR = 625; after ERR_HEADER; after ERR_OVERFLOW below 625. -/
theorem witness_MissedResetStaysDefined :
    (st f0 625).cur.val = 625 ∧
    ((perform (.append [0x00, 0x00, 0x00]) (st [] 0)).rspPort = some ⟨0x01, .errHeader, 3, none⟩ ∧
      (perform (.append [0x00, 0x00, 0x00]) (st [] 0)).cur.val + [(0x01 : Byte)].length ≤ 625) ∧
    ((perform (.append [0x01, 0x02]) (st hdr3 624)).rspPort = some ⟨0x01, .errOverflow, 624, none⟩ ∧
      (perform (.append [0x01, 0x02]) (st hdr3 624)).hdrBad = false ∧
      (perform (.append [0x01, 0x02]) (st hdr3 624)).cur.val + [(0x01 : Byte)].length ≤ 625) := by decide

theorem witness_OpenFrameHoldsAllBytesSent :
    (st hdr3 3).live = [0xFE, 0xFF, 0x05] ∧
    overAfter false (.append [0x01]) (perform (.append [0x01]) (st hdr3 3)) = false ∧
    overAfterAll false [.append [0xFE], .reset, .append [0xFE, 0xFF], .isEmpty, .append [0x05]] State.reset = false ∧
    sentSinceReset [] [.append [0xFE], .reset, .append [0xFE, 0xFF], .isEmpty, .append [0x05]] =
      [0xFE, 0xFF, 0x05] := by decide

/-- The inner hypotheses of ChecksumIsWrappingSum: right header and footer, data all zero (V-D11). -/
theorem witness_ChecksumIsWrappingSum :
    hdrOk (hdr3 ++ [(622, 0xFF), (623, 0xFE)]) = true ∧ ftrOk (hdr3 ++ [(622, 0xFF), (623, 0xFE)]) = true ∧
    (∀ a, a < 619 → Memory.read (hdr3 ++ [(622, 0xFF), (623, 0xFE)]) (a + 3) = 0x00#8) := by decide +kernel

/-- F0 passes checks 1 to 4; and the answers at each side of the clauses' boundaries, from R137. -/
theorem witness_SingleBitErrorsDetected :
    (perform .decode (st f0 625)).rspPort.map (·.status) = some .ok ∧
    (perform .decode (st f0 625)).rspPort.bind (·.reading) = some (extract Config.layout f0) ∧
    [(0, 0), (2, 7), (3, 0), (621, 7), (622, 0), (623, 7), (624, 0)].map (fun p : Nat × Nat =>
      word .decode (st (f0.write p.1 (f0.read p.1 ^^^ (1#8 <<< p.2))) 625)) =
    [some 0x06030000, some 0x06030000, some 0x06060000, some 0x06060000, some 0x06050000, some 0x06050000,
      some 0x06060000] := by decide +kernel

/-- F0 decodes with OK and VAL 0 to the Reading of its bytes (V-D8 corrects its checksum for byte 487). -/
theorem witness_UnassignedByteNotInterpreted :
    exec .decode (st f0 625) = .next (perform .decode (st f0 625)) ∧
    (perform .decode (st f0 625)).rspPort = some ⟨0x06, .ok, 0, some (extract Config.layout f0)⟩ :=
  ⟨exec_perform _ _, by decide +kernel⟩

/-- The leap-year clause at its ends and at its exceptions. -/
theorem witness_CalendarRule :
    (leap 2000, leap 2100, leap 2200, leap 2204, leap 2255) = (true, false, false, true, false) := by decide

/-- A pair has the identifier of itself; a pair beside it has another. -/
theorem witness_DeviceIdentifierIsUnique :
    deviceIdOf 5 66 = deviceIdOf 5 66 ∧ deviceIdOf 5 66 ≠ deviceIdOf 5 67 := by decide +kernel

/-- F0's timestamp passes CAL_VALID, as OnlyTimestampCanFail supposes. -/
theorem witness_OnlyTimestampCanFail : calValid (extract Config.layout f0).timestamp = true := by decide +kernel

/-- Two open connections. -/
theorem witness_InstancesAreIndependent :
    (1 : Nat) ≠ 2 ∧ (System.find (System.accept (System.accept [] 1) 2) 1).isSome = true := by decide

/-- A driver in the middle of a frame. -/
theorem witness_ReferenceHostMeetsDuty :
    (Driver.onBytesReceived [0xFE, 0xFF, 0x05, 0x01] Driver.start).1.Inv ∧
    (Driver.onBytesReceived [0xFE, 0xFF, 0x05, 0x01] Driver.start).1.block.cur.val = 4 :=
  ⟨⟨by decide, by decide, by decide, by decide, by decide⟩, by decide⟩

theorem witness_PseudoInstructionsExpand :
    List.lookup ['H'] [(['H'], [(0xFE : Byte), 0xFF, 0x05])] = some [0xFE, 0xFF, 0x05] ∧
    1 ≤ 2 ∧ 2 < [(0xFE : Byte), 0xFF, 0x05].length ∧ 2 - 1 + 1 ≤ 65535 := by decide

/-- A value of the payload, as ReadingPayloadOrder supposes. -/
theorem witness_ReadingPayloadOrder : (extract Config.layout f0).values[0]? = some 0x4B0 := by decide +kernel

end Sys2Proof.Tests
end

section
/-!
The obligation of 00_scope.md: the machine never faults or refuses (R13, R100).
-/

namespace Sys2Proof.Machine

/-- Settles O11: a command answers the state of `perform`, whose response is under the command's opcode, and a step
answers the state of `advance`. -/
theorem stepIsTotal : Obligations.StepIsTotal := by
  constructor
  · intro i s
    obtain ⟨r, hr, hopc⟩ := perform_rspPort i s
    exact ⟨perform i s, r, exec_perform i s, hr, hopc⟩
  · intro s
    exact ⟨advance s, step_advance s⟩

end Sys2Proof.Machine
end

section
/-!
Laws the state obligations share: the conditions computed from FB and CUR, what a command leaves of the live bytes, and
where in a run a response comes from.
-/

namespace Sys2Proof.Machine

/-! ### The header verdict (R27, R100) -/

theorem hdrBad_iff (s : State) : s.hdrBad = true ↔ 3 ≤ s.cur.val ∧ hdrOk s.fb = false := by
  simp [State.hdrBad]

/-- `hdr_bad` depends on whether three bytes are there and, if so, on the first three. -/
theorem hdrBad_congr {s t : State} (hc : 3 ≤ s.cur.val ↔ 3 ≤ t.cur.val)
    (hb : 3 ≤ s.cur.val → ∀ a, a < 3 → s.fb.read a = t.fb.read a) : s.hdrBad = t.hdrBad := by
  rw [Bool.eq_iff_iff, hdrBad_iff, hdrBad_iff, ← hc]
  exact and_congr_right fun h => by rw [hdrOk_congr (hb h)]

/-! ### What one command leaves of FB and CUR -/

/-- No command but RESET takes CUR back or changes a live byte (R34, R35). -/
theorem perform_keeps_live {i : Instr} (hi : i ≠ .reset) (s : State) :
    s.cur.val ≤ (perform i s).cur.val ∧ ∀ a, a < s.cur.val → (perform i s).fb.read a = s.fb.read a := by
  cases perform_cases i s with
  | accepted c h _ _ ht =>
    rw [ht]
    exact ⟨by simp, fun a ha => read_writeList_out _ _ _ _ (.inl ha)⟩
  | cleared hr _ => exact absurd hr hi
  | reading _ _ _ ht => rw [ht]; exact ⟨le_rfl, fun _ _ => rfl⟩
  | answered _ _ _ _ _ _ ht => rw [ht]; exact ⟨le_rfl, fun _ _ => rfl⟩

theorem perform_append_fits {s : State} {c : List Byte} (hc : c ≠ []) (h : s.cur.val + c.length ≤ 625) :
    perform (.append c) s = (s.accept c h).respond Opcode.append
      (if (s.accept c h).hdrBad then .errHeader else .ok) (s.accept c h).curVal none :=
  perform_of_exec (i := .append c) (execAppend_fits hc h)

theorem perform_append_nil (s : State) :
    perform (.append []) s = s.respond Opcode.append .errEmpty s.curVal none :=
  perform_of_exec (i := .append []) (execAppend_nil s)

/-! ### Runs -/

/-- A run without RESET keeps every byte that was live before it (R34). -/
theorem runCommands_keeps_live {is : List Instr} (his : ∀ i ∈ is, i ≠ .reset) (s : State) :
    s.cur.val ≤ (runCommands is s).2.cur.val ∧
      ∀ a, a < s.cur.val → (runCommands is s).2.fb.read a = s.fb.read a := by
  induction is generalizing s with
  | nil => exact ⟨le_rfl, fun _ _ => rfl⟩
  | cons i is ih =>
    obtain ⟨hi, his⟩ := List.forall_mem_cons.1 his
    obtain ⟨hcur, hread⟩ := perform_keeps_live hi s
    obtain ⟨hcur', hread'⟩ := ih his (perform i s)
    rw [runCommands_cons]
    exact ⟨hcur.trans hcur', fun a ha => (hread' a (ha.trans_le hcur)).trans (hread a ha)⟩

/-- Once three bytes are there, a run without RESET keeps `hdr_bad` (R34). -/
theorem runCommands_hdrBad {is : List Instr} (his : ∀ i ∈ is, i ≠ .reset) {s : State} (h3 : 3 ≤ s.cur.val) :
    (runCommands is s).2.hdrBad = s.hdrBad := by
  obtain ⟨hcur, hread⟩ := runCommands_keeps_live his s
  exact hdrBad_congr (iff_of_true (h3.trans hcur) h3) fun _ a ha => hread a (ha.trans_le h3)

/-- Response `k` of a run is that of command `k` in the state the `k` commands before it leave (R54, R80). -/
theorem runCommands_getElem? (is : List Instr) (s : State) (k : Nat) :
    (runCommands is s).1[k]? = is[k]?.bind fun i => (perform i (runCommands (is.take k) s).2).rspPort := by
  induction is generalizing s k with
  | nil => rfl
  | cons i is ih =>
    obtain ⟨r, hr, -⟩ := perform_rspPort i s
    cases k with
    | zero => simp [runCommands_cons, hr]
    | succ k => simp [runCommands_cons, hr, ih]

end Sys2Proof.Machine
end

section
/-!
The invariant of the machine: canonical memory and a legal pending response (R20 to R22, R40, R80 to R82, R170).
-/

namespace Sys2Proof.Machine

theorem opcode_eq_decode_iff (i : Instr) : i.opcode = Opcode.decode ↔ i = .decode := by
  cases i <;> simp [Instr.opcode]

/-! ### A legal Reading (R170) -/

/-- The year of a frame is 2000 and its byte (R167). -/
theorem toNat_extractTimestamp_year (L : Config.Layout) (fb : Memory) :
    (extractTimestamp L fb).year.toNat = 2000 + (fb.read L.stamp).toNat := by
  have h := (fb.read L.stamp).isLt
  rw [extractTimestamp, u8, BitVec.toNat_ofNat, Nat.mod_eq_of_lt (by omega)]

theorem deviceIdOf_digits (d : Byte) (v : Half) : ∀ c ∈ deviceIdOf d v, 0x30 ≤ c.toNat ∧ c.toNat ≤ 0x39 := by
  intro c hc
  rcases List.mem_append.1 hc with hc | hc
  · exact decFormat_digits _ _ c hc
  · exact decFormat_digits _ _ c hc

/-- EXTRACT builds a legal Reading of every frame with a valid date, under every LAYOUT. -/
theorem extract_legal {L : Config.Layout} {fb : Memory} (hd : calValid (extractTimestamp L fb) = true) :
    (extract L fb).Legal where
  abs_lt i := by simpa [extract] using u40be_lt fb _
  pol_lt i := by simpa [extract] using u40be_lt fb _
  secs_lt := u24be_lt _ _
  pulse_lt i := by simpa [extract] using u24be_lt fb _
  id_length := by
    rw [extract, deviceIdOf_length]
    split
    · exact .inl rfl
    · exact .inr rfl
  id_digits := deviceIdOf_digits _ _
  year := by
    have h := (fb.read L.stamp).isLt
    rw [extract, toNat_extractTimestamp_year]
    omega
  date := hd

/-! ### A legal response (R80, R81) -/

/-- A response without a Reading is legal when its status is allowed and it is not DECODE with OK. -/
theorem legal_of_noReading {opc : Byte} {st : Status} (v : Half) (hs : statusAllowed opc st = true)
    (hd : opc = Opcode.decode → st ≠ .ok) : Rsp.Legal ⟨opc, st, v, none⟩ where
  status_allowed := hs
  reading_iff := ⟨fun h => (nomatch h), fun ⟨ho, hok⟩ => absurd hok (hd ho)⟩
  reading_legal := fun _ h => nomatch h

theorem legal_of_reading {rd : Reading} (h : rd.Legal) : Rsp.Legal ⟨Opcode.decode, .ok, 0, some rd⟩ where
  status_allowed := rfl
  reading_iff := ⟨fun _ => ⟨rfl, rfl⟩, fun _ => rfl⟩
  reading_legal := by
    rintro _ ⟨⟩
    exact ⟨rfl, h⟩

/-! ### The invariant -/

theorem respond_inv {s : State} {opc : Byte} {st : Status} {v : Half} {rd : Option Reading} (hfb : s.fb.wf)
    (hr : Rsp.Legal ⟨opc, st, v, rd⟩) : (s.respond opc st v rd).Inv where
  fb_wf := hfb
  rsp_legal := by
    rintro _ ⟨⟩
    exact hr

/-- Every command leaves the invariant, from every state with canonical memory. -/
theorem perform_inv (i : Instr) {s : State} (hfb : s.fb.wf) : (perform i s).Inv := by
  cases perform_cases i s with
  | accepted c h _ _ ht =>
    rw [ht]
    refine respond_inv (wf_writeList hfb h) (legal_of_noReading _ ?_ fun h => nomatch h)
    split
    · rfl
    · rfl
  | cleared _ ht =>
    rw [ht]
    exact respond_inv wf_clear (legal_of_noReading _ rfl fun h => nomatch h)
  | reading _ _ hd ht =>
    rw [ht]
    exact respond_inv hfb (legal_of_reading (extract_legal hd))
  | answered st v _ hs _ hd ht =>
    rw [ht]
    exact respond_inv hfb (legal_of_noReading v hs fun ho => hd ((opcode_eq_decode_iff i).1 ho))

/-- Settles O17: no cell is listed and no response is pending. -/
theorem resetMeetsInvariant : Obligations.ResetMeetsInvariant where
  fb_wf := wf_nil
  rsp_legal := fun _ h => nomatch h

/-- Settles O16: a step idles, performs one command on the state with its words consumed, or answers an illegal word;
consuming words touches no byte of FB. -/
theorem stepKeepsInvariant : Obligations.StepKeepsInvariant := by
  intro s t hs hstep
  rcases step_cases hstep with ⟨rfl, -⟩ | ⟨i, rest, -, rfl⟩ | ⟨opc, why, rest, -, rfl⟩
  · exact hs
  · exact perform_inv i (s := s.consume rest) hs.fb_wf
  · exact respond_inv (s := s.consume rest) hs.fb_wf (legal_of_noReading 0 rfl fun _ h => nomatch h)

end Sys2Proof.Machine
end

section
/-!
Frames and laws of the accumulator: who writes FB and CUR, the live bytes as an append-only list, and the header
verdict between RESETs (R21, R22, R34, R35, R41, R111, R139).
-/

namespace Sys2Proof.Machine

/-- Settles O25: of all outcomes only an accepted APPEND and RESET write FB or CUR. -/
theorem onlyAppendAndResetWrite : Obligations.OnlyAppendAndResetWrite := by
  intro i s t h
  refine ⟨by rw [← perform_of_exec h, perform_cmdPort], fun happ hreset => ?_⟩
  cases exec_cases h with
  | accepted c _ hi _ _ => exact absurd hi (happ c)
  | cleared hi _ => exact absurd hi hreset
  | reading _ _ _ ht => rw [ht]; exact ⟨rfl, rfl⟩
  | answered _ _ _ _ _ _ ht => rw [ht]; exact ⟨rfl, rfl⟩

/-- Settles O28: an accepted chunk is appended, RESET leaves nothing live, and an answer alone leaves the live bytes; an
empty chunk that fits appends nothing. -/
theorem livePrefixIsAppendOnly : Obligations.LivePrefixIsAppendOnly := by
  intro i s t h
  cases exec_cases h with
  | accepted c hfit hi _ ht =>
    subst hi
    rw [ht, live_respond, live_accept]
    exact (if_pos hfit).symm
  | cleared hi ht => rw [hi, ht, live_respond, live_clear]
  | reading hi _ _ ht => rw [hi, ht, live_respond]
  | answered st v hi _ ha _ ht =>
    rw [ht, live_respond]
    cases i with
    | append c =>
      rcases ha c rfl with ⟨-, rfl⟩ | ⟨-, hover⟩
      · simp
      · exact (if_neg (not_le.2 hover)).symm
    | reset => exact absurd rfl hi
    | isComplete => rfl
    | isEmpty => rfl
    | outstanding => rfl
    | decode => rfl
    | peek a => rfl

/-- Settles O29: a run without RESET keeps the bytes below CUR, so the first three, and with them the verdict. -/
theorem headerVerdictHolds : Obligations.HeaderVerdictHolds := by
  intro is s h3 his
  obtain ⟨hcur, hread⟩ := runCommands_keeps_live his s
  exact ⟨h3.trans hcur, fun a ha => hread a (ha.trans_le h3), runCommands_hdrBad his h3⟩

/-! ### A header failure lasts -/

/-- Only an accepted APPEND that leaves `hdr_bad` is answered ERR_HEADER (R102). -/
theorem hdrBad_of_append_errHeader {c : List Byte} {s : State} {r : Rsp}
    (hr : (perform (.append c) s).rspPort = some r) (hst : r.status = .errHeader) :
    (perform (.append c) s).hdrBad = true := by
  cases perform_cases (.append c) s with
  | accepted d h _ _ ht =>
    rw [ht, respond_rspPort] at hr
    obtain rfl := Option.some.inj hr
    rw [ht]
    by_contra hbad
    exact absurd ((if_neg hbad).symm.trans hst) (by decide)
  | cleared hi _ => exact nomatch hi
  | reading hi _ _ _ => exact nomatch hi
  | answered st v _ _ ha _ ht =>
    rw [ht, respond_rspPort] at hr
    obtain rfl := Option.some.inj hr
    obtain rfl : st = .errHeader := hst
    rcases ha c rfl with ⟨h, -⟩ | ⟨h, -⟩
    · exact nomatch h
    · exact nomatch h

/-- From a state with `hdr_bad` no APPEND is answered OK (R111). -/
theorem append_status_of_hdrBad {s : State} (hbad : s.hdrBad = true) {c : List Byte} {r : Rsp}
    (hr : (perform (.append c) s).rspPort = some r) :
    r.status = .errEmpty ∨ r.status = .errOverflow ∨ r.status = .errHeader := by
  obtain ⟨h3, -⟩ := (hdrBad_iff s).1 hbad
  by_cases hc : c = []
  · subst hc
    rw [perform_append_nil] at hr
    obtain rfl := Option.some.inj hr
    exact .inl rfl
  by_cases hfit : s.cur.val + c.length ≤ 625
  · have hkeep : (s.accept c hfit).hdrBad = s.hdrBad :=
      hdrBad_congr (iff_of_true (by simp; omega) h3) fun _ a ha =>
        read_writeList_out _ _ _ _ (.inl (ha.trans_le h3))
    rw [perform_append_fits hc hfit, if_pos (hkeep.trans hbad)] at hr
    obtain rfl := Option.some.inj hr
    exact .inr (.inr rfl)
  · rw [perform_overflows (not_le.1 hfit)] at hr
    obtain rfl := Option.some.inj hr
    exact .inr (.inl rfl)

/-- From a state with `hdr_bad`, DECODE fails at its first or its second check (R131, R132, R139). -/
theorem perform_decode_of_hdrBad {s : State} (hbad : s.hdrBad = true) :
    perform .decode s =
      s.respond Opcode.decode (if s.cur.val < 625 then .errIncomplete else .errHeader) 0 none := by
  have hv : validate s = if s.cur.val < 625 then .errIncomplete else .errHeader := by
    split
    · next h => exact validate_incomplete h.ne
    · next h =>
      exact validate_headerBad (le_antisymm (Nat.le_of_lt_succ s.cur.isLt) (not_lt.1 h)) ((hdrBad_iff s).1 hbad).2
  rw [← hv]
  refine perform_of_exec (i := .decode) (execDecodeWith_fails ?_)
  rw [hv]
  split
  · decide
  · decide

/-- Settles O31: ERR_HEADER leaves `hdr_bad`, every run without RESET keeps it, and from a state with `hdr_bad` neither
command succeeds. -/
theorem headerFailureLasts : Obligations.HeaderFailureLasts := by
  intro s₀ s c r₀ is hexec hr₀ hst his k r hk
  have hbad : s.hdrBad = true := by
    rw [← perform_of_exec hexec] at hr₀ ⊢
    exact hdrBad_of_append_errHeader hr₀ hst
  have hbad' : (runCommands (is.take k) s).2.hdrBad = true := by
    rw [runCommands_hdrBad (fun i hi => his i (List.mem_of_mem_take hi)) ((hdrBad_iff s).1 hbad).1, hbad]
  rw [runCommands_getElem?] at hk
  constructor
  · intro d hd
    rw [hd] at hk
    exact append_status_of_hdrBad hbad' hk
  · intro hd
    rw [hd, Option.bind_some, perform_decode_of_hdrBad hbad'] at hk
    obtain rfl := Option.some.inj hk
    exact ⟨rfl, rfl⟩

end Sys2Proof.Machine
end

section
/-!
Chunking does not matter (R109, R110): the answer to an APPEND is a function of the live bytes after it.
-/

namespace Sys2Proof.Machine

/-- The status of an accepted APPEND after which `bs` are the live bytes (R102). -/
def appendVerdict (bs : List Byte) : Status :=
  if bs.take 3 = [0xFE, 0xFF, 0x05] ∨ bs.length < 3 then .ok else .errHeader

/-- The header is right exactly when the live bytes begin with FE FF 05. -/
theorem hdrOk_iff_live {s : State} (h : 3 ≤ s.cur.val) :
    hdrOk s.fb = true ↔ s.live.take 3 = [0xFE, 0xFF, 0x05] := by
  rw [hdrOk_iff, State.live, ← List.map_take, List.take_range, Nat.min_eq_left h]
  simp [List.range_succ]

/-- The header check of APPEND is `appendVerdict` of the live bytes. -/
theorem appendVerdict_live (s : State) : appendVerdict s.live = if s.hdrBad then .errHeader else .ok := by
  rw [appendVerdict, live_length]
  by_cases h3 : 3 ≤ s.cur.val
  · cases hok : hdrOk s.fb with
    | true => rw [if_pos (.inl ((hdrOk_iff_live h3).1 hok)), if_neg (by simp [hdrBad_iff, hok])]
    | false =>
      have hne : s.live.take 3 ≠ [0xFE, 0xFF, 0x05] := mt (hdrOk_iff_live h3).2 (Bool.not_eq_true _ ▸ hok)
      rw [if_neg (not_or.2 ⟨hne, not_lt.2 h3⟩), if_pos ((hdrBad_iff s).2 ⟨h3, hok⟩)]
  · rw [if_pos (.inr (not_le.1 h3)), if_neg (by simp [hdrBad_iff, h3])]

/-- A verdict on the first bytes of `bs` can look at the whole: the header, once there, stays (R34). -/
theorem appendVerdict_of_isPrefix {p bs : List Byte} (h : p <+: bs) :
    appendVerdict p = if bs.take 3 = [0xFE, 0xFF, 0x05] ∨ p.length < 3 then .ok else .errHeader := by
  obtain ⟨q, rfl⟩ := h
  by_cases h3 : p.length < 3
  · rw [appendVerdict, if_pos (.inr h3), if_pos (.inr h3)]
  · rw [appendVerdict, List.take_append_of_le_length (not_lt.1 h3)]

/-- The answer to an accepted APPEND, from the live bytes after it (R82, R102). -/
theorem perform_append_rspPort {s : State} {c : List Byte} (hc : c ≠ []) (h : s.cur.val + c.length ≤ 625) :
    (perform (.append c) s).rspPort =
      some ⟨Opcode.append, appendVerdict (s.live ++ c), BitVec.ofNat 16 (s.cur.val + c.length), none⟩ := by
  rw [perform_append_fits hc h, respond_rspPort, ← appendVerdict_live, live_accept]
  rfl

/-- Chunks sent one after the other write their concatenation (R109). -/
theorem runCommands_appends {cs : List (List Byte)} (hcs : ∀ c ∈ cs, c ≠ []) {s : State}
    (h : s.cur.val + cs.flatten.length ≤ 625) :
    (runCommands (cs.map .append) s).2.fb = s.fb.writeList s.cur.val cs.flatten ∧
      (runCommands (cs.map .append) s).2.cur.val = s.cur.val + cs.flatten.length ∧
      (runCommands (cs.map .append) s).2.live = s.live ++ cs.flatten := by
  induction cs generalizing s with
  | nil => exact ⟨rfl, rfl, (List.append_nil _).symm⟩
  | cons c cs ih =>
    obtain ⟨hc, hcs⟩ := List.forall_mem_cons.1 hcs
    rw [List.flatten_cons, List.length_append] at h
    have hfit : s.cur.val + c.length ≤ 625 := by omega
    have hs : perform (.append c) s = _ := perform_append_fits hc hfit
    obtain ⟨hfb, hcur, hlive⟩ := ih hcs (s := perform (.append c) s) (by rw [hs, respond_cur, accept_cur]; omega)
    rw [List.map_cons, runCommands_cons]
    refine ⟨?_, ?_, ?_⟩
    · rw [hfb, List.flatten_cons, writeList_append, hs]
      rfl
    · rw [hcur, List.flatten_cons, List.length_append, hs, respond_cur, accept_cur, Nat.add_assoc]
    · rw [hlive, List.flatten_cons, ← List.append_assoc, hs, live_respond, live_accept]

/-- The answer to chunk `j`, from the chunks up to it (R110). -/
theorem runCommands_appends_getElem? {cs : List (List Byte)} (hcs : ∀ c ∈ cs, c ≠ []) {s : State}
    (h : s.cur.val + cs.flatten.length ≤ 625) {j : Nat} (hj : j < cs.length) :
    (runCommands (cs.map .append) s).1[j]? =
      some ⟨Opcode.append, appendVerdict (s.live ++ (cs.take (j + 1)).flatten),
        BitVec.ofNat 16 (s.cur.val + (cs.take (j + 1)).flatten.length), none⟩ := by
  have hflat : (cs.take (j + 1)).flatten = (cs.take j).flatten ++ cs[j] := by
    rw [List.take_succ_eq_append_getElem hj, List.flatten_append, List.flatten_singleton]
  have hle := (List.take_prefix (j + 1) cs).flatten.length_le
  rw [hflat, List.length_append] at hle
  obtain ⟨-, hcur, hlive⟩ :=
    runCommands_appends (cs := cs.take j) (fun c hc => hcs c (List.mem_of_mem_take hc)) (s := s) (by omega)
  rw [runCommands_getElem?, ← List.map_take, List.getElem?_map, List.getElem?_eq_getElem hj, Option.map_some,
    Option.bind_some, perform_append_rspPort (hcs _ (List.getElem_mem hj)) (by omega), hcur, hlive, hflat,
    List.length_append, List.append_assoc, Nat.add_assoc]

/-- Settles O30: the chunks write their concatenation, as the single APPEND does, and each answer is the verdict on the
bytes so far. -/
theorem chunkingDoesNotMatter : Obligations.ChunkingDoesNotMatter := by
  intro cs s h0 hcs hpos hle r
  have hnil : s.live = [] := List.eq_nil_of_length_eq_zero (by rw [live_length, h0])
  have hfit : s.cur.val + cs.flatten.length ≤ 625 := by omega
  have hone := perform_append_fits (c := cs.flatten) (List.ne_nil_of_length_pos hpos) hfit
  obtain ⟨hfb, hcur, hlive⟩ := runCommands_appends hcs hfit
  refine ⟨by rw [hcur, h0, Nat.zero_add], by rw [hlive, hnil, List.nil_append], by rw [hfb, hone]; rfl,
    Fin.ext (by rw [hcur, hone]; rfl), by rw [runCommands_length, List.length_map], fun j hj => ?_⟩
  rw [runCommands_appends_getElem? hcs hfit hj, hnil, List.nil_append, h0, Nat.zero_add,
    appendVerdict_of_isPrefix (List.take_prefix (j + 1) cs).flatten]

end Sys2Proof.Machine
end

section
/-!
Stale bytes are never observable (R24, R30): a command reads bytes below CUR alone.
-/

namespace Sys2Proof.Machine

namespace SameButStale

variable {s t : State}

/-- The same response put on both states. -/
theorem respond (h : SameButStale s t) (opc : Byte) (st : Status) {v w : Half} (hv : v = w) (rd : Option Reading) :
    SameButStale (s.respond opc st v rd) (t.respond opc st w rd) :=
  ⟨h.cur, h.live, h.cmd, by rw [respond_rspPort, respond_rspPort, hv]⟩

theorem clear (h : SameButStale s t) : SameButStale s.clear t.clear :=
  ⟨rfl, fun _ _ => rfl, h.cmd, h.rsp⟩

/-- An accepted chunk makes live bytes of its own, and leaves no stale byte between them and the old ones. -/
theorem accept (h : SameButStale s t) (c : List Byte) (hs : s.cur.val + c.length ≤ 625)
    (ht : t.cur.val + c.length ≤ 625) : SameButStale (s.accept c hs) (t.accept c ht) where
  cur := Fin.ext (by rw [accept_cur, accept_cur, h.cur])
  live a ha := by
    rw [accept_cur] at ha
    rw [accept_fb, accept_fb, ← h.cur]
    by_cases hlt : a < s.cur.val
    · rw [read_writeList_out _ _ _ _ (.inl hlt), read_writeList_out _ _ _ _ (.inl hlt), h.live a hlt]
    · obtain ⟨k, rfl⟩ := Nat.exists_eq_add_of_le (not_lt.1 hlt)
      rw [read_writeList_mem _ _ _ _ (by omega), read_writeList_mem _ _ _ _ (by omega)]
  cmd := h.cmd
  rsp := h.rsp

theorem curVal (h : SameButStale s t) : s.curVal = t.curVal := by rw [State.curVal, State.curVal, h.cur]

theorem complete (h : SameButStale s t) : s.complete = t.complete := by rw [State.complete, State.complete, h.cur]

theorem empty (h : SameButStale s t) : s.empty = t.empty := by rw [State.empty, State.empty, h.cur]

theorem outstanding (h : SameButStale s t) : s.outstanding = t.outstanding := by
  rw [State.outstanding, State.outstanding, h.cur]

/-- The header check reads FB[0..2] only when they are live. -/
theorem hdrBad (h : SameButStale s t) : s.hdrBad = t.hdrBad :=
  hdrBad_congr (by rw [h.cur]) fun h3 a ha => h.live a (ha.trans_le h3)

/-- Checks 2 to 4 of DECODE read FB only at CUR = 625, where every byte is live. -/
theorem validate (h : SameButStale s t) : Machine.validate s = Machine.validate t := by
  by_cases hc : s.cur.val = 625
  · have hread : ∀ a, a < 625 → s.fb.read a = t.fb.read a := fun a ha => h.live a (hc ▸ ha)
    have hhdr : hdrOk s.fb = hdrOk t.fb := hdrOk_congr fun a ha => hread a (by omega)
    have hftr : ftrOk s.fb = ftrOk t.fb := by simp [ftrOk, hread]
    have hcks : cksOk s.fb = cksOk t.fb := by
      simp [cksOk, hread, checksum_congr fun a ha => hread a (by omega)]
    rw [Machine.validate, Machine.validate, h.complete, hhdr, hftr, hcks]
  · rw [validate_incomplete hc, validate_incomplete (h.cur ▸ hc)]

/-- EXTRACT of a frame that passed validation reads live bytes alone. -/
theorem extract (h : SameButStale s t) (hv : Machine.validate s = .ok) :
    Machine.extract Config.layout s.fb = Machine.extract Config.layout t.fb := by
  obtain ⟨hc, -⟩ := (validate_ok_iff s).1 hv
  exact extract_congr fun a ha _ => h.live a (by omega)

end SameButStale

theorem perform_append_sameButStale {s t : State} (h : SameButStale s t) (c : List Byte) :
    SameButStale (perform (.append c) s) (perform (.append c) t) := by
  by_cases hc : c = []
  · subst hc
    rw [perform_append_nil, perform_append_nil]
    exact h.respond _ _ h.curVal _
  by_cases hs : s.cur.val + c.length ≤ 625
  · have ht : t.cur.val + c.length ≤ 625 := h.cur ▸ hs
    have hst := h.accept c hs ht
    rw [perform_append_fits hc hs, perform_append_fits hc ht, hst.hdrBad]
    exact hst.respond _ _ hst.curVal _
  · have ht : ¬ t.cur.val + c.length ≤ 625 := h.cur ▸ hs
    rw [perform_overflows (not_le.1 hs), perform_overflows (not_le.1 ht)]
    exact h.respond _ _ h.curVal _

theorem perform_decode_sameButStale {s t : State} (h : SameButStale s t) :
    SameButStale (perform .decode s) (perform .decode t) := by
  by_cases hv : validate s = .ok
  · have hv' : validate t = .ok := h.validate ▸ hv
    have hx := h.extract hv
    have hd : extractTimestamp Config.layout s.fb = extractTimestamp Config.layout t.fb :=
      congrArg Reading.timestamp hx
    by_cases hcal : calValid (extractTimestamp Config.layout s.fb) = true
    · rw [perform_of_exec (i := .decode) (execDecodeWith_ok hv hcal),
        perform_of_exec (i := .decode) (execDecodeWith_ok hv' (hd ▸ hcal)), hx]
      exact h.respond _ _ rfl _
    · rw [Bool.not_eq_true] at hcal
      rw [perform_of_exec (i := .decode) (execDecodeWith_badDate hv hcal),
        perform_of_exec (i := .decode) (execDecodeWith_badDate hv' (hd ▸ hcal))]
      exact h.respond _ _ rfl _
  · rw [perform_of_exec (i := .decode) (execDecodeWith_fails hv),
      perform_of_exec (i := .decode) (execDecodeWith_fails (h.validate ▸ hv)), h.validate]
    exact h.respond _ _ rfl _

theorem perform_peek_sameButStale {s t : State} (h : SameButStale s t) (a : Nat) :
    SameButStale (perform (.peek a) s) (perform (.peek a) t) := by
  by_cases ha : a < s.cur.val
  · rw [perform_of_exec (i := .peek a) (execPeek_live ha),
      perform_of_exec (i := .peek a) (execPeek_live (h.cur ▸ ha)), h.live a ha]
    exact h.respond _ _ rfl _
  · rw [perform_stale (not_lt.1 ha), perform_stale (h.cur ▸ not_lt.1 ha)]
    exact h.respond _ _ rfl _

/-- Every command keeps two states equal but for their stale bytes, and answers them alike. -/
theorem perform_sameButStale {s t : State} (h : SameButStale s t) (i : Instr) :
    SameButStale (perform i s) (perform i t) := by
  cases i with
  | append c => exact perform_append_sameButStale h c
  | reset => exact h.clear.respond _ _ rfl _
  | isComplete => exact h.respond _ _ (congrArg flagVal h.complete) _
  | isEmpty => exact h.respond _ _ (congrArg flagVal h.empty) _
  | outstanding => exact h.respond _ _ (congrArg (BitVec.ofNat 16) h.outstanding) _
  | decode => exact perform_decode_sameButStale h
  | peek a => exact perform_peek_sameButStale h a

/-- Settles O33, by induction on the commands: `SameButStale` is kept by every command, and its two response ports are
equal. -/
theorem staleBytesNeverObserved : Obligations.StaleBytesNeverObserved := by
  intro s t is h
  induction is generalizing s t with
  | nil => exact ⟨rfl, h⟩
  | cons i is ih =>
    have hi := perform_sameButStale h i
    obtain ⟨hrsp, hend⟩ := ih _ _ hi
    rw [runCommands_cons, runCommands_cons, hi.rsp, hrsp]
    exact ⟨rfl, hend⟩

end Sys2Proof.Machine
end

section
/-!
Several instances (R33, R209): what `System.find` returns after each operation of a system.
-/

namespace Sys2Proof.Machine

theorem find_cons (k : Nat) (s : State) (sys : System) (d : Nat) :
    System.find ((k, s) :: sys) d = if k = d then some s else sys.find d := rfl

/-- Closing a connection takes away its own block alone. -/
theorem find_close (sys : System) (c d : Nat) :
    (sys.close c).find d = if d = c then none else sys.find d := by
  induction sys with
  | nil => simp [System.close, System.find]
  | cons e sys ih =>
    obtain ⟨k, s⟩ := e
    rw [System.close] at ih ⊢
    rw [find_cons]
    by_cases hk : k = c
    · subst hk
      rw [List.filter_cons_of_neg (by simp), ih]
      grind
    · rw [List.filter_cons_of_pos (by simpa using hk), find_cons, ih]
      grind

/-- Accepting a connection puts its block at reset, in place of one already there. -/
theorem find_accept (sys : System) (c d : Nat) :
    (sys.accept c).find d = if d = c then some State.reset else sys.find d := by
  rw [System.accept, find_cons, ← System.close, find_close]
  grind

/-- A command is performed on the block of its own connection. -/
theorem find_command (sys : System) (c : Nat) (i : Instr) (d : Nat) :
    (sys.command c i).find d = if d = c then (sys.find d).map (perform i) else sys.find d := by
  induction sys with
  | nil => simp [System.command, System.find]
  | cons e sys ih =>
    obtain ⟨k, s⟩ := e
    rw [System.command] at ih ⊢
    rw [List.map_cons, find_cons]
    by_cases hk : k = c
    · rw [if_pos hk, find_cons, ih]
      grind
    · rw [if_neg hk, find_cons, ih]
      grind

/-- Settles O49: what each operation of a system leaves at every connection. -/
theorem instancesAreIndependent : Obligations.InstancesAreIndependent := by
  intro sys c i
  refine ⟨fun d hd => ⟨?_, ?_, ?_⟩, ?_, ?_, ?_⟩
  · rw [find_command, if_neg hd]
  · rw [find_accept, if_neg hd]
  · rw [find_close, if_neg hd]
  · rw [find_command, if_pos rfl]
  · rw [find_accept, if_pos rfl]
  · rw [find_close, if_pos rfl]

end Sys2Proof.Machine
end

section
/-!
The binary form of a command: its words decode to it, a step on them performs it, and so the port steps and the host's
sessions refine the abstract run (R54, R70, R76, R79, R212).
-/

namespace Sys2Proof

/-- Every encoding is one command word and its payload (`Laws.EncodedHead`, for all commands). -/
theorem encodedHead (i : Instr) : Laws.EncodedHead.Statement i := by
  cases i with
  | append c => exact Laws.EncodedHead.append c
  | reset => exact Laws.EncodedHead.reset
  | isComplete => exact Laws.EncodedHead.isComplete
  | isEmpty => exact Laws.EncodedHead.isEmpty
  | outstanding => exact Laws.EncodedHead.outstanding
  | decode => exact Laws.EncodedHead.decode
  | peek a => exact Laws.EncodedHead.peek a

/-- A command word passes the tests of R77 when its opcode is assigned and its IMM is 0 where there is no operand. -/
theorem decodeWord_commandWord {opc : Byte} {imm : Half} {p : List Word} {i : Instr}
    (hi : instrOfOpcode opc imm p = some i) (hop : takesNoOperand opc = false ∨ imm = 0x0000) :
    decodeWord (commandWord opc imm) p = .ok i := by
  rw [decodeWord, opcOf_commandWord, immOf_commandWord, rsvOf_commandWord, hi]
  rcases hop with hop | hop <;> simp [hop]

/-- A LEN or IDX with a binary form is its 16-bit field (R73, R79). -/
theorem toNat_operand {n : Nat} (h : n ≤ 65535) : (BitVec.ofNat 16 n).toNat = n := by
  rw [BitVec.toNat_ofNat, Nat.mod_eq_of_lt (by omega)]

/-- The words of a well-formed command read as that command. -/
theorem decodeWord_encode {i : Instr} {w : Word} {p : List Word} (h : i.wellFormed = true) (he : encode i = w :: p) :
    decodeWord w p = .ok i := by
  cases i with
  | append c =>
    obtain ⟨rfl, rfl⟩ := List.cons.inj he
    have hlen : (BitVec.ofNat 16 c.length).toNat = c.length := toNat_operand (by simpa [Instr.wellFormed] using h)
    exact decodeWord_commandWord (by rw [instrOfOpcode, if_pos rfl, hlen, chunkOf_packBytes]) (.inl rfl)
  | peek a =>
    obtain ⟨rfl, rfl⟩ := List.cons.inj he
    have ha : (BitVec.ofNat 16 a).toNat = a := toNat_operand (by simpa [Instr.wellFormed] using h)
    exact decodeWord_commandWord (by simp [instrOfOpcode, ha]) (.inl rfl)
  | reset | isComplete | isEmpty | outstanding | decode =>
    obtain ⟨rfl, rfl⟩ := List.cons.inj he
    exact decodeWord_commandWord rfl (.inr rfl)

/-- The binary form of a command decodes to it, and to nothing of the words after it. -/
theorem decodeCommand_encode {i : Instr} (h : i.wellFormed = true) (rest : List Word) :
    decodeCommand (encode i ++ rest) = .command i rest := by
  obtain ⟨w, p, he, -, -, hlen⟩ := encodedHead i h
  rw [he, List.cons_append, decodeCommand_payload hlen, decodeWord_encode h he]

/-- The words a host sends for a command are those of the one command it sends in its place (R79, log entry 11). -/
theorem decodeCommand_portWords (i : Instr) : decodeCommand i.portWords = .command i.binaryForm [] := by
  rw [← List.append_nil i.portWords]
  exact decodeCommand_encode (binaryForm_wellFormed i) []

end Sys2Proof

namespace Sys2Proof.Machine

/-- Settles O9: consuming the words is the only thing a step adds to the command's meaning. -/
theorem stepPerformsDecodedCommand : Obligations.StepPerformsDecodedCommand := by
  intro s i rest h
  exact step_command h

/-! ### Commands and runs depend on FB and CUR alone (R20, R27) -/

theorem perform_congr {s t : State} (hfb : s.fb = t.fb) (hcur : s.cur = t.cur) (i : Instr) :
    perform i s = { perform i t with cmdPort := s.cmdPort } := by
  rw [← perform_ports i t s.cmdPort s.rspPort, ← hfb, ← hcur]

theorem runCommands_congr {s t : State} (hfb : s.fb = t.fb) (hcur : s.cur = t.cur) (is : List Instr) :
    (runCommands is s).1 = (runCommands is t).1 ∧ (runCommands is s).2.fb = (runCommands is t).2.fb ∧
      (runCommands is s).2.cur = (runCommands is t).2.cur := by
  induction is generalizing s t with
  | nil => exact ⟨rfl, hfb, hcur⟩
  | cons i is ih =>
    have hi := perform_congr hfb hcur i
    obtain ⟨hrsps, hend⟩ := ih (s := perform i s) (t := perform i t) (by rw [hi]) (by rw [hi])
    refine ⟨?_, hend⟩
    rw [runCommands_cons, runCommands_cons, hrsps, hi]

/-- A run touches no word of the command port. -/
@[simp] theorem runCommands_cmdPort (is : List Instr) (s : State) : (runCommands is s).2.cmdPort = s.cmdPort := by
  induction is generalizing s with
  | nil => rfl
  | cons i is ih => rw [runCommands_cons, ih, perform_cmdPort]

/-! ### The binary level refines the abstract level -/

/-- Taking the pending response of `t` and putting other words on its command port changes neither the responses of a run
from `t` nor the FB and CUR it leaves. -/
theorem runCommands_consume (is : List Instr) (t : State) (ws : List Word) :
    (runCommands is (t.consume ws)).1 = (runCommands is t).1 ∧
      ∀ rest, (runCommands is (t.consume ws)).2.consume rest = (runCommands is t).2.consume rest := by
  obtain ⟨hrsps, hfb, hcur⟩ := runCommands_congr (consume_fb t ws) (consume_cur t ws) is
  exact ⟨hrsps, fun rest => State.eq_of_fields hfb hcur rfl rfl⟩

/-- A state with `ws` left on the port and no response pending has nothing to consume. -/
theorem consume_self {s : State} {ws : List Word} (hcmd : s.cmdPort = ws) (hrsp : s.rspPort = none) :
    s.consume ws = s := State.eq_of_fields rfl rfl hcmd.symm hrsp.symm

/-- Settles O12, by induction on the commands: each step performs the command whose words come first, and what stands on
the ports changes nothing of the run that follows. -/
theorem portStepsRefineAbstractRun : Obligations.PortStepsRefineAbstractRun := by
  intro is s rest hwf hrsp hcmd
  change runSteps is.length s = ((runCommands is s).1, (runCommands is s).2.consume rest)
  induction is generalizing s with
  | nil => exact congrArg (([], ·)) (consume_self hcmd hrsp).symm
  | cons i is ih =>
    obtain ⟨hi, his⟩ := List.forall_mem_cons.1 hwf
    obtain ⟨r, hr, -⟩ := perform_rspPort i s
    have hnext : s.nextCommand = .command i (is.flatMap encode ++ rest) := by
      rw [State.nextCommand, hcmd, List.flatMap_cons, List.append_assoc, decodeCommand_encode hi]
    obtain ⟨hrsps, hend⟩ := runCommands_consume is (perform i s) (is.flatMap encode ++ rest)
    calc runSteps (is.length + 1) s
        = (r :: (runSteps is.length ((perform i s).consume (is.flatMap encode ++ rest))).1,
            (runSteps is.length ((perform i s).consume (is.flatMap encode ++ rest))).2) :=
          runSteps_succ (advance_command hnext) hr _
      _ = (r :: (runCommands is (perform i s)).1, (runCommands is (perform i s)).2.consume rest) := by
          rw [ih _ his rfl rfl, hrsps, hend]
      _ = ((runCommands (i :: is) s).1, (runCommands (i :: is) s).2.consume rest) := by
          rw [runCommands_cons, hr]; rfl

theorem oneCommand_portWords (i : Instr) : oneCommand i.portWords = true := by
  rw [oneCommand, decodeCommand_portWords]
  rfl

/-- One exchange of the host of R212 with nothing outstanding: the command's response, and both ports empty. -/
theorem hostExchange_portWords {i : Instr} {s : State} {r : Rsp} (hcmd : s.cmdPort = []) (hrsp : s.rspPort = none)
    (hr : (perform i s).rspPort = some r) :
    hostExchange i.portWords s = some (r, (perform i s).consume []) := by
  have hadv : advance { s with cmdPort := i.portWords } = { perform i s with cmdPort := [] } := by
    rw [advance_command (s := { s with cmdPort := i.portWords }) (decodeCommand_portWords i), perform_binaryForm,
      perform_ports i s i.portWords s.rspPort]
  rw [hostExchange, issue_ready hcmd hrsp (oneCommand_portWords i), Option.bind_some, hadv]
  exact takeResponse_some hr

/-- Settles O13: the exchange gives the response and the state of `perform`. -/
theorem hostExchangePerformsCommand : Obligations.HostExchangePerformsCommand := by
  intro i s hcmd hrsp
  obtain ⟨r, hr, -⟩ := perform_rspPort i s
  have hcmd' : (perform i s).cmdPort = [] := by rw [perform_cmdPort, hcmd]
  refine ⟨perform i s, r, exec_perform i s, hr, hcmd', ?_⟩
  rw [hostExchange_portWords hcmd hrsp hr, State.consume, hcmd']

/-- A session, by induction on the commands: each exchange is allowed, since the one before left both ports empty. -/
theorem hostSession_eq_runCommands (is : List Instr) {s : State} (hcmd : s.cmdPort = []) (hrsp : s.rspPort = none) :
    hostSession is s = some ((runCommands is s).1, (runCommands is s).2.consume []) := by
  induction is generalizing s with
  | nil => exact congrArg (fun t => some ([], t)) (consume_self hcmd hrsp).symm
  | cons i is ih =>
    obtain ⟨r, hr, -⟩ := perform_rspPort i s
    obtain ⟨hrsps, hend⟩ := runCommands_consume is (perform i s) []
    calc hostSession (i :: is) s
        = (hostSession is ((perform i s).consume [])).map fun q => (r :: q.1, q.2) := by
          rw [hostSession, hostExchange_portWords hcmd hrsp hr]
      _ = some (r :: (runCommands is (perform i s)).1, (runCommands is (perform i s)).2.consume []) := by
          rw [ih rfl rfl, hrsps, hend]
          rfl
      _ = some ((runCommands (i :: is) s).1, (runCommands (i :: is) s).2.consume []) := by
          rw [runCommands_cons, hr]
          rfl

/-- Settles O15: the session is the run, which leaves the command port as it was, empty. -/
theorem hostSessionRefinesAbstractRun : Obligations.HostSessionRefinesAbstractRun := by
  intro is s hcmd hrsp
  have hport : (runCommands is s).2.cmdPort = [] := by rw [runCommands_cmdPort, hcmd]
  rw [hostSession_eq_runCommands is hcmd hrsp, State.consume, ← hport]

end Sys2Proof.Machine
end

section
/-!
Repeated commands (R53).
-/

namespace Sys2Proof.Machine

/-- A command that leaves FB and CUR alone is answered alike when it is repeated. -/
theorem exec_repeat {i : Instr} {s t : State} (h : exec i s = .next t) (hfb : t.fb = s.fb) (hcur : t.cur = s.cur) :
    exec i t = .next t := by
  obtain rfl := perform_of_exec h
  rw [exec_perform, perform_congr hfb hcur, perform_cmdPort, ← perform_cmdPort i s]

/-- Settles O24: a command that only reads leaves FB and CUR, so its repetition gives the same; RESET clears what is
clear; the second APPEND is accepted or rejected. -/
theorem repeatedCommands : Obligations.RepeatedCommands := by
  refine ⟨fun s t i hi h => ?_, fun s t h => ?_, fun s t u c _ hu => ?_⟩
  · have happ : ∀ c, i ≠ .append c := by rcases hi with rfl | rfl | rfl | rfl | ⟨a, rfl⟩ <;> simp
    have hreset : i ≠ .reset := by rcases hi with rfl | rfl | rfl | rfl | ⟨a, rfl⟩ <;> simp
    obtain ⟨hfb, hcur⟩ := (onlyAppendAndResetWrite i s t h).2 happ hreset
    exact ⟨hfb, hcur, exec_repeat h hfb hcur⟩
  · obtain rfl := Host.Outcome.next.inj h
    rfl
  · cases exec_cases hu with
    | accepted d _ hi hd ht =>
      obtain rfl := Instr.append.inj hi
      exact .inl ⟨hd, by rw [ht, respond_cur, accept_cur]⟩
    | cleared hi _ => exact nomatch hi
    | reading hi _ _ _ => exact nomatch hi
    | answered st v _ _ ha _ ht =>
      have hst : st = .errEmpty ∨ st = .errOverflow := (ha c rfl).imp And.left And.left
      rw [ht]
      exact .inr ⟨rfl, rfl, _, rfl, hst⟩

end Sys2Proof.Machine
end

section
/-!
The unassigned byte of LAYOUT_GEM625 (R49): covered by the checksum, read by nothing else.
-/

namespace Sys2Proof.Machine

/-- DECODE answers OK with a Reading only when every check passes, and then with the Reading of the frame (R130). -/
theorem decode_ok_cases {s t : State} {rd : Reading} (h : exec .decode s = .next t)
    (hr : t.rspPort = some ⟨Opcode.decode, .ok, 0, some rd⟩) :
    validate s = .ok ∧ calValid (extractTimestamp Config.layout s.fb) = true ∧ rd = extract Config.layout s.fb := by
  cases exec_cases h with
  | accepted _ _ hi _ _ => exact nomatch hi
  | cleared hi _ => exact nomatch hi
  | reading _ hv hd ht =>
    rw [ht, respond_rspPort] at hr
    injection hr with hr
    injection hr with _ _ _ hrd
    exact ⟨hv, hd, (Option.some.inj hrd).symm⟩
  | answered st v _ _ _ hd ht =>
    rw [ht, respond_rspPort] at hr
    injection hr with hr
    injection hr with _ hst _ _
    exact absurd hst (hd rfl)

theorem cksOk_iff (m : Memory) : cksOk m = true ↔ m.read 624 = checksum m := by
  simp [cksOk]

/-- A frame with its checksum written passes check 4: the last byte is not in the sum (R134). -/
theorem cksOk_write_checksum (m : Memory) : cksOk (m.write 624 (checksum m)) = true := by
  rw [cksOk_iff, read_write_self]
  exact checksum_congr fun a ha => (read_write_ne m _ ha.ne).symm

/-- Validation passes for a frame with a right checksum that agrees with a valid one in its first 624 bytes but 487. -/
theorem validate_ok_congr {s : State} {m : Memory} (hv : validate s = .ok)
    (hread : ∀ a, a < 624 → a ≠ 487 → m.read a = s.fb.read a) (hcks : cksOk m = true) :
    validate { s with fb := m } = .ok := by
  obtain ⟨hcur, hhdr, hftr, -⟩ := (validate_ok_iff s).1 hv
  refine (validate_ok_iff _).2 ⟨hcur, ?_, ?_, hcks⟩
  · rw [← hhdr]
    exact hdrOk_congr fun a ha => hread a (by omega) (by omega)
  · rw [ftrOk_iff] at hftr ⊢
    rwa [hread 622 (by decide) (by decide), hread 623 (by decide) (by decide)]

/-- DECODE of such a frame gives the same Reading (R49). -/
theorem decode_ok_congr {s : State} {m : Memory} (hv : validate s = .ok)
    (hd : calValid (extractTimestamp Config.layout s.fb) = true)
    (hread : ∀ a, a < 624 → a ≠ 487 → m.read a = s.fb.read a) (hcks : cksOk m = true) :
    exec .decode { s with fb := m } =
      .next ({ s with fb := m }.respond Opcode.decode .ok 0 (some (extract Config.layout s.fb))) := by
  have hextract : extract Config.layout m = extract Config.layout s.fb :=
    extract_congr fun a ha h487 => hread a (by omega) h487
  have hstamp : extractTimestamp Config.layout m = extractTimestamp Config.layout s.fb :=
    congrArg Reading.timestamp hextract
  rw [← hextract]
  exact execDecodeWith_ok (validate_ok_congr hv hread hcks) (by rw [hstamp, hd])

/-- Settles O39: no check but the checksum, which is corrected, and no field reads byte 487. -/
theorem unassignedByteNotInterpreted : Obligations.UnassignedByteNotInterpreted := by
  intro s t rd b h hr m
  obtain ⟨hv, hd, rfl⟩ := decode_ok_cases h hr
  refine ⟨_, decode_ok_congr hv hd (fun a ha h487 => ?_) (cksOk_write_checksum m), rfl⟩
  rw [read_write_ne m _ ha.ne, read_write_ne s.fb b h487]

end Sys2Proof.Machine
end

section
/-!
LAYOUTs by their bytes (R48), and the fields of LAYOUT_GEM625 (R47).
-/

namespace Sys2Proof.Config

/-- No field is empty (R47), so its interval is where its bytes are. -/
theorem regions_pos {L : Layout} {r : Nat × Nat} (h : r ∈ L.regions) : 0 < r.2 := by
  have hall : ∀ r ∈ L.regions, 0 < r.2 := by simp [Layout.regions]
  exact hall r h

/-- An interval that is not empty lies in 3..621 exactly when each of its bytes does. -/
theorem inData_iff_bytes {r : Nat × Nat} (hr : 0 < r.2) :
    (3 ≤ r.1 ∧ r.1 + r.2 ≤ 622) ↔ ∀ a, r.1 ≤ a → a < r.1 + r.2 → 3 ≤ a ∧ a ≤ 621 := by
  constructor
  · intro h a _ _
    omega
  · intro h
    have hfirst := h r.1 (by omega) (by omega)
    have hlast := h (r.1 + r.2 - 1) (by omega) (by omega)
    omega

/-- Two intervals that are not empty lie one before the other exactly when they share no byte: the later start would be
one. -/
theorem apart_iff_bytes {r q : Nat × Nat} (hr : 0 < r.2) (hq : 0 < q.2) :
    (r.1 + r.2 ≤ q.1 ∨ q.1 + q.2 ≤ r.1) ↔
      ∀ a, ¬ ((r.1 ≤ a ∧ a < r.1 + r.2) ∧ (q.1 ≤ a ∧ a < q.1 + q.2)) := by
  constructor
  · intro h a
    omega
  · intro h
    have hstart := h (max r.1 q.1)
    omega

/-- Settles O40: region by region and pair by pair, the interval test is the byte-wise one. -/
theorem layoutWellFormedByBytes : Obligations.LayoutWellFormedByBytes := by
  refine ⟨fun L => and_congr ?_ ?_, by decide⟩
  · exact forall₂_congr fun r hr => inData_iff_bytes (regions_pos hr)
  · exact List.Pairwise.iff_of_mem fun hr hq => apart_iff_bytes (regions_pos hr) (regions_pos hq)

end Sys2Proof.Config

namespace Sys2Proof.Machine

section
variable (L : Config.Layout) (fb : Memory)

theorem extract_absEnergy (i : Fin 48) : (extract L fb).absEnergy[i] = u40be fb (L.absE + 5 * i) :=
  table_getElem 48 _ i i.isLt

theorem extract_polEnergy (i : Fin 48) : (extract L fb).polEnergy[i] = u40be fb (L.polE + 5 * i) :=
  table_getElem 48 _ i i.isLt

theorem extract_currentRaw (i : Fin 48) : (extract L fb).currentRaw[i] = u16be fb (L.curr + 2 * i) :=
  table_getElem 48 _ i i.isLt

theorem extract_pulse (i : Fin 4) : (extract L fb).pulse[i] = u24be fb (L.pulse + 3 * i) :=
  table_getElem 4 _ i i.isLt

theorem extract_tempRaw (i : Fin 8) : (extract L fb).tempRaw[i] = u16be fb (L.temp + 2 * i) :=
  table_getElem 8 _ i i.isLt

end

/-- Settles O42: each field is its primitive at its offset; byte `k` of element `i` stands at the field's start, plus
`k`, plus the bytes of the elements before. -/
theorem gemFrameFields : Obligations.GemFrameFields := by
  intro fb b r
  refine ⟨toNat_u16le fb 3, fun i => ?_, fun i => ?_, toNat_u16le fb 485, rfl, ?_, fun i => ?_, toNat_u24be fb 585,
    fun i => ?_, fun i => ?_, toNat_extractTimestamp_year Config.layout fb, rfl, rfl, rfl, rfl, rfl⟩
  · rw [extract_absEnergy, toNat_u40be]
    simp only [Nat.add_right_comm _ (5 * i.val)]
    rfl
  · rw [extract_polEnergy, toNat_u40be]
    simp only [Nat.add_right_comm _ (5 * i.val)]
    rfl
  · exact congrArg (decFormat 2 (b 488) ++ decFormat 5 ·) (toNat_u16le fb 485)
  · rw [extract_currentRaw, toNat_u16be, Nat.add_right_comm]
    rfl
  · rw [extract_pulse, toNat_u24be]
    simp only [Nat.add_right_comm _ (3 * i.val)]
    rfl
  · rw [extract_tempRaw, toNat_u16be, Nat.add_right_comm]
    rfl

end Sys2Proof.Machine
end

section
/-!
What the decoder reads from any command word: the opcode map, the payload bytes and the tests of R77, in their order
(R74 to R77), and the round trip with the encoder.
-/

namespace Sys2Proof

/-- Settles O1: the encoding is one command word with its payload, which reads as the command. -/
theorem encodedCommandDecodesBack : Obligations.EncodedCommandDecodesBack := by
  intro i rest h
  exact decodeCommand_encode h rest

/-! ### The number of payload words (R76) -/

theorem payloadCount_append {w : Word} (h : opcOf w = Opcode.append) : payloadCount w = ((immOf w).toNat + 3) / 4 :=
  if_pos h

theorem payloadCount_of_ne {w : Word} (h : opcOf w ≠ Opcode.append) : payloadCount w = 0 := if_neg h

/-! ### The chunk of an APPEND (R75) -/

theorem getElem?_wordBytes (w : Word) {k : Nat} (h : k < 4) :
    (wordBytes w)[k]? = some (w.extractLsb' (24 - 8 * k) 8) := by
  interval_cases k <;> rfl

/-- Enough payload words carry a chunk of the length asked for. -/
theorem length_chunkOf {len : Nat} {p : List Word} (h : (len + 3) / 4 ≤ p.length) : (chunkOf len p).length = len := by
  rw [chunkOf, List.length_take, length_flatMap_wordBytes]
  omega

theorem length_chunkOf_le (len : Nat) (p : List Word) : (chunkOf len p).length ≤ len := List.length_take_le _ _

/-- Chunk byte `k` stands in payload word `k div 4`, from its top byte down. -/
theorem getElem?_chunkOf {len k : Nat} (p : List Word) (h : k < len) :
    (chunkOf len p)[k]? = p[k / 4]?.map fun v => v.extractLsb' (24 - 8 * (k % 4)) 8 := by
  rw [chunkOf, List.getElem?_take_of_lt h, getElem?_flatMap_wordBytes, Option.map_eq_bind]
  exact congrArg _ (funext fun w => getElem?_wordBytes w (Nat.mod_lt k (by decide)))

/-! ### The opcode map (R74) -/

/-- An opcode stands for a command with that opcode, whose operand is a 16-bit field. -/
theorem instrOfOpcode_some {opc : Byte} {imm : Half} {p : List Word} {i : Instr}
    (h : instrOfOpcode opc imm p = some i) : i.opcode = opc ∧ i.wellFormed = true := by
  have himm : imm.toNat ≤ 65535 := Nat.le_of_lt_succ imm.isLt
  unfold instrOfOpcode at h
  split_ifs at h with h1 h2 h3 h4 h5 h6 h7 <;> obtain rfl := Option.some.inj h
  · exact ⟨h1.symm, decide_eq_true ((length_chunkOf_le _ _).trans himm)⟩
  · exact ⟨h2.symm, rfl⟩
  · exact ⟨h3.symm, rfl⟩
  · exact ⟨h4.symm, rfl⟩
  · exact ⟨h5.symm, rfl⟩
  · exact ⟨h6.symm, rfl⟩
  · exact ⟨h7.symm, decide_eq_true himm⟩

/-- Test (a) of R77: the unassigned opcodes are those outside 0x01..0x07. -/
theorem instrOfOpcode_eq_none_iff {opc : Byte} {imm : Half} {p : List Word} :
    instrOfOpcode opc imm p = none ↔ opc.toNat < 0x01 ∨ 0x07 < opc.toNat := by
  unfold instrOfOpcode
  split_ifs with h1 h2 h3 h4 h5 h6 h7
  case neg =>
    refine iff_of_true rfl ?_
    bv_omega
  all_goals
    subst opc
    exact iff_of_false nofun (by decide)

theorem takesNoOperand_iff {opc : Byte} : takesNoOperand opc = true ↔ 0x02 ≤ opc.toNat ∧ opc.toNat ≤ 0x06 := by
  simp [takesNoOperand]

/-! ### The tests of R77 on one word -/

section
variable {w : Word} {p : List Word} {i : Instr}

/-- The legal words: OPC is assigned, RSV is 0x00, and IMM is 0x0000 where there is no operand. -/
theorem decodeWord_ok (ha : instrOfOpcode (opcOf w) (immOf w) p = some i) (hb : rsvOf w = 0x00)
    (hc : takesNoOperand (opcOf w) = false ∨ immOf w = 0x0000) : decodeWord w p = .ok i := by
  rw [decodeWord, ha]
  dsimp only
  rw [if_neg (not_not.2 hb), if_neg (by rcases hc with hc | hc <;> simp [hc])]

/-- A legal word stands for a command with its opcode that has a binary form. -/
theorem decodeWord_ok_cases (h : decodeWord w p = .ok i) : i.opcode = opcOf w ∧ i.wellFormed = true := by
  unfold decodeWord at h
  split at h
  · cases h
  · next hi =>
    split_ifs at h
    obtain rfl := Except.ok.inj h
    exact instrOfOpcode_some hi

theorem decodeWord_unassigned (ha : (opcOf w).toNat < 0x01 ∨ 0x07 < (opcOf w).toNat) :
    decodeWord w p = .error .opcode := by
  rw [decodeWord, instrOfOpcode_eq_none_iff.2 ha]

theorem decodeWord_reserved (ha : instrOfOpcode (opcOf w) (immOf w) p = some i) (hb : rsvOf w ≠ 0x00) :
    decodeWord w p = .error .reserved := by
  rw [decodeWord, ha]
  exact if_pos hb

theorem decodeWord_operand (ha : instrOfOpcode (opcOf w) (immOf w) p = some i) (hb : rsvOf w = 0x00)
    (ht : takesNoOperand (opcOf w) = true) (hc : immOf w ≠ 0x0000) : decodeWord w p = .error .operand := by
  rw [decodeWord, ha]
  dsimp only
  rw [if_neg (not_not.2 hb), if_pos (by simpa [ht] using hc)]

theorem instrOfOpcode_assigned (p : List Word) (ha : ¬ ((opcOf w).toNat < 0x01 ∨ 0x07 < (opcOf w).toNat)) :
    ∃ i, instrOfOpcode (opcOf w) (immOf w) p = some i :=
  Option.ne_none_iff_exists'.1 fun hn => ha (instrOfOpcode_eq_none_iff.1 hn)

/-- A word that fails a test is illegal for the first it fails. -/
theorem decodeWord_illegal
    (h : ((opcOf w).toNat < 0x01 ∨ 0x07 < (opcOf w).toNat) ∨ rsvOf w ≠ 0x00 ∨
      (0x02 ≤ (opcOf w).toNat ∧ (opcOf w).toNat ≤ 0x06 ∧ immOf w ≠ 0x0000)) :
    decodeWord w p = .error (if (opcOf w).toNat < 0x01 ∨ 0x07 < (opcOf w).toNat then .opcode
      else if rsvOf w ≠ 0x00 then .reserved else .operand) := by
  split_ifs with ha hb
  · exact decodeWord_unassigned ha
  · obtain ⟨i, hi⟩ := instrOfOpcode_assigned p ha
    exact decodeWord_reserved hi hb
  · obtain ⟨i, hi⟩ := instrOfOpcode_assigned p ha
    obtain ⟨h2, h6, hc⟩ := (h.resolve_left ha).resolve_left hb
    exact decodeWord_operand hi (not_not.1 hb) (takesNoOperand_iff.2 ⟨h2, h6⟩) hc

/-- A word that fails no test is legal. -/
theorem decodeWord_legal (p : List Word)
    (h : ¬ (((opcOf w).toNat < 0x01 ∨ 0x07 < (opcOf w).toNat) ∨ rsvOf w ≠ 0x00 ∨
      (0x02 ≤ (opcOf w).toNat ∧ (opcOf w).toNat ≤ 0x06 ∧ immOf w ≠ 0x0000))) :
    ∃ i, decodeWord w p = .ok i := by
  obtain ⟨ha, hb, hc⟩ := (not_or.1 h).imp_right not_or.1
  obtain ⟨i, hi⟩ := instrOfOpcode_assigned p ha
  refine ⟨i, decodeWord_ok hi (not_not.1 hb) ?_⟩
  by_contra hop
  obtain ⟨ht, himm⟩ := not_or.1 hop
  obtain ⟨h2, h6⟩ := takesNoOperand_iff.1 (Bool.eq_true_of_not_eq_false ht)
  exact hc ⟨h2, h6, himm⟩

end

/-! ### One word with the words after it -/

section
variable {w : Word} {ws : List Word} {i : Instr} {why : IllegalReason}

theorem decodeCommand_of_ok (hws : payloadCount w ≤ ws.length)
    (h : decodeWord w (ws.take (payloadCount w)) = .ok i) :
    decodeCommand (w :: ws) = .command i (ws.drop (payloadCount w)) := by
  rw [decodeCommand_full hws, h]

theorem decodeCommand_of_error (hws : payloadCount w ≤ ws.length)
    (h : decodeWord w (ws.take (payloadCount w)) = .error why) :
    decodeCommand (w :: ws) = .illegal (opcOf w) why (ws.drop (payloadCount w)) := by
  rw [decodeCommand_full hws, h]

/-- An APPEND word with its payload (R74, R75). -/
theorem decodeWord_append {p : List Word} (hopc : opcOf w = Opcode.append) (hrsv : rsvOf w = 0x00) :
    decodeWord w p = .ok (.append (chunkOf (immOf w).toNat p)) :=
  decodeWord_ok (if_pos hopc) hrsv (.inl (by rw [hopc]; rfl))

/-- A word of a command without payload leaves all words after it. -/
theorem decodeCommand_noPayload {opc : Byte} (hopc : opcOf w = opc) (hrsv : rsvOf w = 0x00) (hne : opc ≠ Opcode.append)
    (hi : instrOfOpcode opc (immOf w) [] = some i) (himm : takesNoOperand opc = false ∨ immOf w = 0x0000) :
    decodeCommand (w :: ws) = .command i ws := by
  subst hopc
  have hcount := payloadCount_of_ne hne
  rw [decodeCommand_of_ok (by omega) (by rw [hcount]; exact decodeWord_ok hi hrsv himm), hcount, List.drop_zero]

end

/-- Settles O2: the payload words are exactly those of the word, and the chunk is read from them byte by byte. -/
theorem payloadCarriesChunkBytes : Obligations.PayloadCarriesChunkBytes := by
  intro w p rest hopc hrsv hp
  have hcount : p.length = payloadCount w := hp.trans (payloadCount_append hopc).symm
  refine ⟨chunkOf (immOf w).toNat p, ?_, length_chunkOf hp.ge, fun k hk => getElem?_chunkOf p hk⟩
  rw [decodeCommand_payload hcount, decodeWord_append hopc hrsv]

/-- Settles O3: one clause for each row of R74, and the opcodes of no row. -/
theorem opcodeMapDecodes : Obligations.OpcodeMapDecodes := by
  intro w ws hrsv
  refine ⟨fun hopc hws => ?_, fun himm => ?_, ?_, fun hopc => ?_⟩
  · have hcount := payloadCount_append hopc
    refine ⟨chunkOf (immOf w).toNat (ws.take (payloadCount w)), length_chunkOf ?_, ?_⟩
    · rw [List.length_take, hcount]
      exact le_min le_rfl hws
    · exact (decodeCommand_of_ok (hcount.trans_le hws) (decodeWord_append hopc hrsv)).trans (by rw [hcount]; rfl)
  · refine ⟨?_, ?_, ?_, ?_, ?_⟩ <;>
    exact fun hopc => decodeCommand_noPayload hopc hrsv (by decide) rfl (.inr himm)
  · exact fun hopc => decodeCommand_noPayload hopc hrsv (by decide) rfl (.inl rfl)
  · have ha : (opcOf w).toNat < 0x01 ∨ 0x07 < (opcOf w).toNat := hopc.imp (fun h => by rw [opcOf, h]; decide) id
    have hne : opcOf w ≠ Opcode.append := fun h => by rw [h] at ha; revert ha; decide
    have hcount := payloadCount_of_ne hne
    rw [decodeCommand_of_error (by omega) (decodeWord_unassigned ha), hcount]
    rfl

/-- Settles O5: each list of words is short enough to be read through. -/
theorem specWordsDecode : Obligations.SpecWordsDecode := by
  unfold Obligations.SpecWordsDecode
  decide

end Sys2Proof

namespace Sys2Proof.Machine

theorem nextCommand_of_port {s : State} {ws : List Word} (h : s.cmdPort = ws) : s.nextCommand = decodeCommand ws :=
  congrArg decodeCommand h

/-- Settles O4: the tests of R77 decide what the word reads as, and an illegal word only consumes and answers. -/
theorem illegalWordsAnswered : Obligations.IllegalWordsAnswered := by
  intro s w ws hport opc need hneed a b c
  rw [hport]
  constructor
  · intro h
    have hdec := decodeCommand_of_error (w := w) hneed (decodeWord_illegal h)
    exact ⟨hdec, step_illegal ((nextCommand_of_port hport).trans hdec)⟩
  · intro h
    obtain ⟨i, hi⟩ := decodeWord_legal (w := w) _ h
    exact ⟨i, decodeCommand_of_ok hneed hi, decodeWord_ok_cases hi⟩

end Sys2Proof.Machine
end

section
/-!
The responses: their words, their status numbers and their one Reading (R80, R81, R171).
-/

namespace Sys2Proof.Machine

/-! ### The fields of the response word (R80) -/

section
variable (r : Rsp)

theorem toNat_head : r.head.toNat = r.opc.toNat * 2 ^ 24 + r.status.code.toNat * 2 ^ 16 + r.val.toNat := by
  show (r.opc ++ (r.status.code ++ r.val)).toNat = _
  rw [toNat_append_eq, toNat_append_eq]
  omega

theorem head_opc : r.head.extractLsb' 24 8 = r.opc := by
  apply BitVec.eq_of_toNat_eq
  rw [toNat_field, toNat_head]
  omega

theorem head_status : r.head.extractLsb' 16 8 = r.status.code := by
  apply BitVec.eq_of_toNat_eq
  rw [toNat_field, toNat_head]
  omega

theorem head_val : r.head.extractLsb' 0 16 = r.val := by
  apply BitVec.eq_of_toNat_eq
  rw [toNat_field, toNat_head]
  omega

end

/-! ### The length of the payload (R171) -/

theorem length_values (rd : Reading) : rd.values.length = 168 := by
  simp [Reading.values]

theorem length_flatMap_valueWords (vs : List Dword) : (vs.flatMap valueWords).length = 2 * vs.length := by
  induction vs with
  | nil => rfl
  | cons v vs ih => rw [List.flatMap_cons, List.length_append, ih, List.length_cons, valueWords]; simp; omega

theorem length_words (rd : Reading) : rd.words.length = 336 := by
  rw [Reading.words, length_flatMap_valueWords, length_values]

/-! ### Which responses have a Reading -/

/-- A command's response has a Reading exactly when it is DECODE with OK. -/
theorem perform_reading_iff {i : Instr} {s : State} {r : Rsp} (hr : (perform i s).rspPort = some r) :
    r.reading.isSome = true ↔ r.opc = Opcode.decode ∧ r.status = .ok := by
  cases perform_cases i s with
  | accepted c h hi hc ht =>
    obtain rfl := Option.some.inj ((congrArg State.rspPort ht).symm.trans hr)
    exact iff_of_false nofun fun h => nomatch h.1
  | cleared hi ht =>
    obtain rfl := Option.some.inj ((congrArg State.rspPort ht).symm.trans hr)
    exact iff_of_false nofun fun h => nomatch h.1
  | reading hi hv hd ht =>
    obtain rfl := Option.some.inj ((congrArg State.rspPort ht).symm.trans hr)
    exact iff_of_true rfl ⟨rfl, rfl⟩
  | answered st v hi hs ha hd ht =>
    obtain rfl := Option.some.inj ((congrArg State.rspPort ht).symm.trans hr)
    exact iff_of_false nofun fun h => hd ((opcode_eq_decode_iff i).1 h.1) h.2

/-- A step on a whole command consumes its words and leaves one response under its OPC as received. -/
theorem step_answers {s : State} {w : Word} {ws : List Word} (hport : s.cmdPort = w :: ws)
    (hws : payloadCount w ≤ ws.length) :
    ∃ t r, step s = .next t ∧ t.cmdPort = ws.drop (payloadCount w) ∧ t.rspPort = some r ∧ r.opc = opcOf w ∧
      (r.reading.isSome = true ↔ r.opc = Opcode.decode ∧ r.status = .ok) := by
  cases hw : decodeWord w (ws.take (payloadCount w)) with
  | error why =>
    have hnext := (nextCommand_of_port hport).trans (decodeCommand_of_error hws hw)
    exact ⟨_, _, step_illegal hnext, rfl, rfl, rfl, iff_of_false nofun fun h => nomatch h.2⟩
  | ok i =>
    have hnext := (nextCommand_of_port hport).trans (decodeCommand_of_ok hws hw)
    obtain ⟨r, hr, hopc⟩ := perform_rspPort i (s.consume (ws.drop (payloadCount w)))
    exact ⟨_, r, (step_command hnext).trans (exec_perform _ _), perform_cmdPort _ _, hr,
      hopc.trans (decodeWord_ok_cases hw).1, perform_reading_iff hr⟩

/-- Settles O6: a step answers a legal word by its command's one response and an illegal word by its own; the words of a
response are its head and the payload of its Reading. -/
theorem everyCommandAnsweredOnce : Obligations.EveryCommandAnsweredOnce := by
  refine ⟨fun s w ws hport hws => step_answers hport hws, fun ⟨opc, st, v, rd⟩ => ?_⟩
  refine ⟨_, _, rfl, head_opc _, head_status _, head_val _, ?_⟩
  cases rd with
  | none => rfl
  | some rd => exact length_words rd

/-- Settles O7: the ten codes by the table of R81, and each of them is at most 0x09. -/
theorem statusCodeNumbers : Obligations.StatusCodeNumbers := by
  refine ⟨⟨rfl, rfl, rfl, rfl, rfl, rfl, rfl, rfl, rfl, rfl⟩, fun st => ?_⟩
  cases st <;> decide

/-! ### Commands without a binary form (R79) -/

/-- An APPEND of 626 bytes or more overflows whatever CUR is. -/
theorem execAppend_long {c : List Byte} (h : 626 ≤ c.length) (s : State) :
    execAppend c s = .next (s.respond Opcode.append .errOverflow s.curVal none) :=
  execAppend_overflows (by omega)

/-- Settles O23: every such chunk overflows, and no such index is live. -/
theorem commandsWithoutBinaryForm : Obligations.CommandsWithoutBinaryForm := by
  refine ⟨fun s c d hc hd _ => ?_, fun s a ha => ?_⟩
  · have hlong := execAppend_long (c := c) (by omega) s
    exact ⟨hlong.trans (execAppend_long hd s).symm, hlong⟩
  · have hcur := s.cur.isLt
    exact execPeek_stale (by omega)

end Sys2Proof.Machine
end

section
/-!
The pseudo-instructions of the assembler (R83, R84).
-/

namespace Sys2Proof.Asm

section
variable {env : Env} {name : List Char} {a b : Nat} {bs : List Byte}

theorem value_slice (hname : env.lookup name = some bs) (hab : a ≤ b) (hb : b < bs.length) :
    (Bytes.slice name a b).value env = some ((bs.drop a).take (b - a + 1)) := by
  rw [Bytes.value, hname]
  exact if_pos ⟨hab, hb⟩

theorem emit_wellFormed {i : Instr} (h : i.wellFormed = true) : emit i = some [i] := if_pos h

theorem emitAppend_value {bytes : Bytes} (hv : bytes.value env = some bs) (hlen : bs.length ≤ 65535) :
    emitAppend env bs.length bytes = some [.append bs] := by
  rw [emitAppend, hv]
  exact (if_pos rfl).trans (emit_wellFormed (decide_eq_true hlen))

end

/-- Settles O51: the slice has the length FEED counts, so its APPEND is emitted; DECRST is a row of the table. -/
theorem pseudoInstructionsExpand : Obligations.PseudoInstructionsExpand := by
  refine ⟨fun env name a b bs hname hab hb hfit => ?_, fun env => rfl⟩
  have hlen : ((bs.drop a).take (b - a + 1)).length = b - a + 1 := by
    rw [List.length_take, List.length_drop]
    omega
  have hemit := emitAppend_value (value_slice hname hab hb) (hlen.trans_le hfit)
  rw [hlen] at hemit
  rw [Line.assemble, hemit, Option.map_some]

end Sys2Proof.Asm
end

section
/-!
The accumulator commands one by one, and the run after a RESET (R101, R104 to R108, R112).
-/

namespace Sys2Proof.Machine

/-! ### RESET, the queries and PEEK -/

/-- Settles O20: RESET leaves `State.clear` of every state, and clearing it again changes nothing. -/
theorem resetEffect : Obligations.ResetEffect := fun _ =>
  ⟨_, rfl, rfl, fun a _ => read_clear a, rfl, rfl, rfl⟩

/-- The VAL of a condition (R82). -/
theorem flagVal_decide (p : Prop) [Decidable p] : flagVal (decide p) = if p then 1 else 0 := by
  by_cases h : p <;> simp [flagVal, h]

/-- Settles O21: each query answers its condition or count of CUR. -/
theorem queriesAnswerCursor : Obligations.QueriesAnswerCursor := by
  intro s
  rw [← flagVal_decide, ← flagVal_decide]
  exact ⟨rfl, rfl, rfl⟩

/-- Settles O22: an index is that of a live byte, or it is not below CUR. -/
theorem peekReadsLiveByte : Obligations.PeekReadsLiveByte := by
  intro s a
  by_cases h : a < s.cur.val
  · rw [if_pos h]
    exact execPeek_live h
  · rw [if_neg h]
    exact execPeek_stale (not_lt.1 h)

/-! ### Recovery (R112) -/

/-- Settles O32: the two queries find the cleared state, whose FB and CUR are those of power-on reset, and a run depends on
FB and CUR alone. -/
theorem recoveryAfterReset : Obligations.RecoveryAfterReset := by
  intro s is
  have hfirst : (runCommands [.reset, .isEmpty, .outstanding] s).1 =
      [⟨0x02, .ok, 0, none⟩, ⟨0x04, .ok, 1, none⟩, ⟨0x05, .ok, 625, none⟩] := rfl
  have hfb : (runCommands [.reset, .isEmpty, .outstanding] s).2.fb = State.reset.fb := rfl
  have hcur : (runCommands [.reset, .isEmpty, .outstanding] s).2.cur = State.reset.cur := rfl
  rw [runCommands_append, hfirst, (runCommands_congr hfb hcur is).1]

/-! ### APPEND -/

/-- `hdr_bad` from the bytes of FB (R27, R100). -/
theorem hdrBad_iff_bytes (s : State) :
    s.hdrBad = true ↔ 3 ≤ s.cur.val ∧ ¬ (s.fb.read 0 = 0xFE ∧ s.fb.read 1 = 0xFF ∧ s.fb.read 2 = 0x05) := by
  rw [hdrBad_iff, ← hdrOk_iff, Bool.not_eq_true]

/-- Settles O19: the two rejections only answer; an accepted chunk is written at CUR and nowhere else. -/
theorem appendEffect : Obligations.AppendEffect := by
  refine fun s c => ⟨fun hc => ?_, fun hover => execAppend_overflows hover, fun hc hfit => ?_⟩
  · rw [hc]
    exact execAppend_nil s
  · refine ⟨_, execAppend_fits hc hfit, rfl, fun k b hk => ?_,
      fun a ha => read_writeList_out _ _ _ _ ha, rfl, ?_⟩
    · obtain ⟨hlt, rfl⟩ := List.getElem?_eq_some_iff.1 hk
      exact read_writeList_mem _ _ _ _ hlt
    · rw [respond_rspPort, if_congr (hdrBad_iff_bytes _) rfl rfl]
      rfl

/-- Once three bytes are there, an accepted chunk keeps `hdr_bad` (R34). -/
theorem accept_hdrBad {s : State} (h3 : 3 ≤ s.cur.val) (c : List Byte) (h : s.cur.val + c.length ≤ 625) :
    (s.accept c h).hdrBad = s.hdrBad :=
  hdrBad_congr (iff_of_true (h3.trans (Nat.le_add_right _ _)) h3) fun _ _ ha =>
    read_writeList_out _ _ _ _ (.inl (ha.trans_le h3))

end Sys2Proof.Machine
end

section
/-!
While no frame is over, the live bytes are the bytes sent since the last RESET (R101, R234).
-/

namespace Sys2Proof.Machine

theorem overAfter_of_ne_reset {i : Instr} (hi : i ≠ .reset) (due : Bool) (t : State) :
    overAfter due i t = (due || frameOver i t) := by
  cases i with
  | reset => exact absurd rfl hi
  | append c => rfl
  | isComplete => rfl
  | isEmpty => rfl
  | outstanding => rfl
  | decode => rfl
  | peek a => rfl

/-- A chunk that does not fit ends the frame (R234). -/
theorem frameOver_of_overflows {s : State} {c : List Byte} (h : 625 < s.cur.val + c.length) :
    frameOver (.append c) (perform (.append c) s) = true := by
  rw [perform_overflows h]
  rfl

/-- The bytes sent by a list of commands, from those sent by its first (R234). -/
theorem sentSinceReset_cons (acc : List Byte) (i : Instr) (is : List Instr) :
    sentSinceReset acc (i :: is) = sentSinceReset (sentSinceReset acc [i]) is := by
  cases i with
  | append c => rfl
  | reset => rfl
  | isComplete => rfl
  | isEmpty => rfl
  | outstanding => rfl
  | decode => rfl
  | peek a => rfl

/-- A command other than RESET that ends no frame adds exactly its bytes to the live ones. -/
theorem live_perform_of_not_over {i : Instr} (hi : i ≠ .reset) {s : State}
    (hover : frameOver i (perform i s) = false) : (perform i s).live = sentSinceReset s.live [i] := by
  rw [livePrefixIsAppendOnly i s _ (exec_perform i s)]
  cases i with
  | append c =>
    have hfit : s.cur.val + c.length ≤ 625 := by
      by_contra h
      exact absurd (frameOver_of_overflows (not_le.1 h)) (by rw [hover]; decide)
    exact if_pos hfit
  | reset => exact absurd rfl hi
  | isComplete => rfl
  | isEmpty => rfl
  | outstanding => rfl
  | decode => rfl
  | peek a => rfl

/-- The step lemma: every command keeps "no frame is over, or the live bytes are those sent". -/
theorem perform_keeps_sent {s : State} {due : Bool} {acc : List Byte} (hs : due = false → s.live = acc) {i : Instr}
    (hover : overAfter due i (perform i s) = false) : (perform i s).live = sentSinceReset acc [i] := by
  by_cases hi : i = .reset
  · subst hi
    rfl
  · rw [overAfter_of_ne_reset hi, Bool.or_eq_false_iff] at hover
    obtain ⟨hdue, hopen⟩ := hover
    rw [← hs hdue]
    exact live_perform_of_not_over hi hopen

/-- The invariant along a run from any state that meets it. -/
theorem runCommands_keeps_sent {is : List Instr} {s : State} {due : Bool} {acc : List Byte}
    (hs : due = false → s.live = acc) (hover : overAfterAll due is s = false) :
    (runCommands is s).2.live = sentSinceReset acc is := by
  induction is generalizing s due acc with
  | nil => exact hs hover
  | cons i is ih =>
    rw [runCommands_cons, sentSinceReset_cons]
    exact ih (fun hopen => perform_keeps_sent hs hopen) hover

/-- Settles O35: the step lemma, the empty start, and the run from it. -/
theorem openFrameHoldsAllBytesSent : Obligations.OpenFrameHoldsAllBytesSent :=
  ⟨fun _ _ _ _ hs hover => perform_keeps_sent hs hover, rfl, fun _ hover => runCommands_keeps_sent (fun _ => rfl) hover⟩

end Sys2Proof.Machine
end

section
/-!
Failures: the status each command answers, what a failing command leaves, and a missed RESET (R200, R203, R204, R234).
-/

namespace Sys2Proof.Machine

/-! ### What a failure leaves (R204) -/

/-- Settles O26: an accepted APPEND can only fail by ERR_HEADER; every other failure is an answer alone, and none of them
is an ERR_HEADER of APPEND. -/
theorem failuresChangeNoState : Obligations.FailuresChangeNoState := by
  intro i s t r h hr hfail
  cases exec_cases h with
  | accepted c hfit hi hc ht =>
    subst hi ht
    rw [respond_rspPort] at hr
    obtain rfl := Option.some.inj hr
    refine ⟨?_, fun hnot => absurd ⟨⟨c, rfl⟩, ?_⟩ hnot⟩
    · rintro d hd -
      obtain rfl := Instr.append.inj hd
      exact ⟨rfl, live_accept s c hfit, rfl⟩
    · by_cases hbad : (s.accept c hfit).hdrBad = true
      · exact if_pos hbad
      · exact absurd (if_neg hbad) hfail
  | cleared hi ht =>
    subst ht
    obtain rfl := Option.some.inj hr
    exact absurd rfl hfail
  | reading hi hv hd ht =>
    subst ht
    obtain rfl := Option.some.inj hr
    exact absurd rfl hfail
  | answered st v hi hs ha hd ht =>
    subst ht
    obtain rfl := Option.some.inj hr
    refine ⟨fun c hc hst => ?_, fun _ => rfl⟩
    obtain rfl : st = .errHeader := hst
    rcases ha c hc with ⟨h, -⟩ | ⟨h, -⟩
    · exact nomatch h
    · exact nomatch h

/-! ### A missed RESET (R234) -/

/-- Settles O34: no byte fits at CUR = 625; ERR_HEADER leaves `hdr_bad`, which an accepted chunk keeps; ERR_OVERFLOW
leaves FB and CUR, so the next chunk that fits follows the same live bytes. -/
theorem missedResetStaysDefined : Obligations.MissedResetStaysDefined := by
  refine ⟨fun s c hcur hc => ?_, fun s₀ s b c r₀ h hr₀ hst hc hfit => ?_, fun s₀ s b c r₀ h hr₀ hst hc hfit => ?_⟩
  · have hlen := List.length_pos_iff.2 hc
    rw [← hcur]
    exact execAppend_overflows (by omega)
  · have hbad : s.hdrBad = true := by
      rw [← perform_of_exec h] at hr₀ ⊢
      exact hdrBad_of_append_errHeader hr₀ hst
    refine ⟨_, execAppend_fits hc hfit, ?_⟩
    rw [accept_hdrBad ((hdrBad_iff s).1 hbad).1, if_pos hbad]
    rfl
  · have hs : s = { s₀ with rspPort := some r₀ } :=
      (failuresChangeNoState _ _ _ _ h hr₀ (by rw [hst]; decide)).2 (by rw [hst]; exact nofun)
    have hlive : s.live = s₀.live := by rw [hs]; rfl
    refine ⟨_, execAppend_fits hc hfit, ?_, rfl, fun h3 hgood => ?_⟩
    · rw [live_respond, live_accept, hlive]
    · exact (accept_hdrBad h3 c hfit).trans hgood

/-! ### The status of each command (R200, R203) -/

/-- APPEND: the empty chunk before the overflow, and both before the header check (R101, R102). -/
theorem append_status {c : List Byte} {s : State} {r : Rsp} (hr : (perform (.append c) s).rspPort = some r) :
    r.status =
      if c = [] then .errEmpty
      else if 625 < s.cur.val + c.length then .errOverflow
      else if 3 ≤ s.cur.val + c.length ∧ ¬ hdrOk (perform (.append c) s).fb then .errHeader
      else .ok := by
  by_cases hc : c = []
  · subst hc
    obtain rfl := Option.some.inj hr
    rfl
  by_cases hover : 625 < s.cur.val + c.length
  · rw [perform_overflows hover] at hr
    obtain rfl := Option.some.inj hr
    rw [if_neg hc, if_pos hover]
  · rw [perform_append_fits hc (not_lt.1 hover)] at hr ⊢
    obtain rfl := Option.some.inj hr
    rw [if_neg hc, if_neg hover]
    exact if_congr ((hdrBad_iff _).trans (by rw [Bool.not_eq_true]; rfl)) rfl rfl

/-- Checks 1 to 4 of DECODE, on the cursor itself (R131 to R135). -/
theorem validate_eq (s : State) :
    validate s =
      if s.cur.val ≠ 625 then .errIncomplete
      else if ¬ hdrOk s.fb then .errHeader
      else if ¬ ftrOk s.fb then .errFooter
      else if ¬ cksOk s.fb then .errChecksum
      else .ok := by
  simp only [validate, State.complete, Bool.not_eq_true', decide_eq_false_iff_not, Bool.not_eq_true, ne_eq]

/-- DECODE: the calendar check comes after the other four (R135). -/
theorem decode_status {s : State} {r : Rsp} (hr : (perform .decode s).rspPort = some r) :
    r.status =
      if validate s = .ok ∧ calValid (extract Config.layout s.fb).timestamp = false then .errField
      else validate s := by
  by_cases hv : validate s = .ok
  · by_cases hd : calValid (extractTimestamp Config.layout s.fb) = true
    · rw [perform_of_exec (i := .decode) (execDecodeWith_ok hv hd)] at hr
      obtain rfl := Option.some.inj hr
      rw [if_neg fun h => absurd (hd.symm.trans h.2) (by decide), hv]
    · rw [Bool.not_eq_true] at hd
      rw [perform_of_exec (i := .decode) (execDecodeWith_badDate hv hd)] at hr
      obtain rfl := Option.some.inj hr
      rw [if_pos ⟨hv, hd⟩]
  · rw [perform_of_exec (i := .decode) (execDecodeWith_fails hv)] at hr
    obtain rfl := Option.some.inj hr
    rw [if_neg fun h => hv h.1]

/-- PEEK: a stale index has no byte (R108). -/
theorem peek_status {a : Nat} {s : State} {r : Rsp} (hr : (perform (.peek a) s).rspPort = some r) :
    r.status = if s.cur.val ≤ a then .errIndex else .ok := by
  rw [perform_of_exec (peekReadsLiveByte s a)] at hr
  obtain rfl := Option.some.inj hr
  by_cases h : s.cur.val ≤ a
  · rw [if_pos h, if_neg (not_lt.2 h)]
  · rw [if_neg h, if_pos (not_le.1 h)]

/-- Settles O27: the response's status is the case of R200 that the command and the state are in, in the order of R203;
each case meets its own cause and no other. -/
theorem failureCauses : Obligations.FailureCauses := by
  intro i s t r h hr hdr ftr cks
  have hhdr (m : Memory) : hdr m ↔ hdrOk m = true := (hdrOk_iff m).symm
  have hftr : ftr ↔ ftrOk s.fb = true := (ftrOk_iff s.fb).symm
  have hcks : cks ↔ cksOk s.fb = true := by rw [cksOk_iff, ← BitVec.toNat_inj, toNat_checksum]
  simp only [hhdr, hftr, hcks]
  obtain rfl := perform_of_exec h
  cases i with
  | append c =>
    rw [append_status hr]
    by_cases hempty : c = []
    · simp [hempty, Nat.le_of_lt_succ s.cur.isLt]
    by_cases hover : 625 < s.cur.val + c.length
    · simp [hempty, hover]
    have hfit := not_lt.1 hover
    by_cases hbad : 3 ≤ s.cur.val + c.length ∧ ¬ hdrOk (perform (.append c) s).fb
    · simp [hempty, hover, hfit, hbad]
    · rw [if_neg hempty, if_neg hover, if_neg hbad]
      simpa [hempty, hfit] using hbad
  | decode =>
    rw [decode_status hr, validate_eq]
    rcases ne_or_eq s.cur.val 625 with hcur | hcur
    · simp [hcur]
    rcases (hdrOk s.fb).dichotomy with hhdrOk | hhdrOk
    · simp [hcur, hhdrOk]
    rcases (ftrOk s.fb).dichotomy with hftrOk | hftrOk
    · simp [hcur, hhdrOk, hftrOk]
    rcases (cksOk s.fb).dichotomy with hcksOk | hcksOk
    · simp [hcur, hhdrOk, hftrOk, hcksOk]
    rcases (calValid (extract Config.layout s.fb).timestamp).dichotomy with hdate | hdate
    · simp [hcur, hhdrOk, hftrOk, hcksOk, hdate]
    · simp [hcur, hhdrOk, hftrOk, hcksOk, hdate]
  | peek a =>
    rw [peek_status hr]
    by_cases hstale : s.cur.val ≤ a
    · simp [hstale]
    · simp [hstale]
  | reset | isComplete | isEmpty | outstanding =>
    obtain rfl := Option.some.inj hr
    simp

end Sys2Proof.Machine
end

section
/-!
DECODE's checks in their order, the checksum as a sum and as a register, and the errors in one byte that the checks
detect (R130 to R138).
-/

namespace Sys2Proof.Machine

/-! ### DECODE's answer from its first failing check (R130, R135) -/

theorem validate_footerBad {s : State} (hcur : s.cur.val = 625) (hhdr : hdrOk s.fb = true) (hftr : ftrOk s.fb = false) :
    validate s = .errFooter := by
  simp [validate_eq, hcur, hhdr, hftr]

theorem validate_checksumBad {s : State} (hcur : s.cur.val = 625) (hhdr : hdrOk s.fb = true)
    (hftr : ftrOk s.fb = true) (hcks : cksOk s.fb = false) : validate s = .errChecksum := by
  simp [validate_eq, hcur, hhdr, hftr, hcks]

/-- A failing check is DECODE's answer, and nothing else changes (R136). -/
theorem exec_decode_fails {s : State} {e : Status} (hv : validate s = e) (he : e ≠ .ok) :
    exec .decode s = .next { s with rspPort := some ⟨0x06, e, 0, none⟩ } := by
  subst hv
  exact execDecodeWith_fails he

theorem cksOk_iff_sum (m : Memory) :
    cksOk m = true ↔ (m.read 624).toNat = (∑ a ∈ Finset.range 624, (m.read a).toNat) % 256 := by
  rw [cksOk_iff, ← BitVec.toNat_inj, toNat_checksum]

/-- Settles O36: one case for each check that can be the first to fail, and two for the calendar. -/
theorem decodeChecksInOrder : Obligations.DecodeChecksInOrder := by
  intro s
  have hheader : (s.fb.read 0 = 0xFE#8 ∧ s.fb.read 1 = 0xFF#8 ∧ s.fb.read 2 = 0x05#8) ↔ hdrOk s.fb = true :=
    (hdrOk_iff s.fb).symm
  have hfooter : (s.fb.read 622 ≠ 0xFF#8 ∨ s.fb.read 623 ≠ 0xFE#8) ↔ ¬ ftrOk s.fb = true :=
    not_and_or.symm.trans (not_congr (ftrOk_iff s.fb).symm)
  simp only [hheader, hfooter, ne_eq, ← cksOk_iff_sum, Bool.not_eq_true]
  rcases ne_or_eq s.cur.val 625 with hcur | hcur
  · rw [if_pos hcur]
    exact exec_decode_fails (validate_incomplete hcur) nofun
  rw [if_neg (not_not.2 hcur)]
  rcases (hdrOk s.fb).dichotomy with hhdr | hhdr
  · rw [if_pos hhdr]
    exact exec_decode_fails (validate_headerBad hcur hhdr) nofun
  rw [if_neg (ne_false_of_eq_true hhdr)]
  rcases (ftrOk s.fb).dichotomy with hftr | hftr
  · rw [if_pos hftr]
    exact exec_decode_fails (validate_footerBad hcur hhdr hftr) nofun
  rw [if_neg (ne_false_of_eq_true hftr)]
  rcases (cksOk s.fb).dichotomy with hcks | hcks
  · rw [if_pos hcks]
    exact exec_decode_fails (validate_checksumBad hcur hhdr hftr hcks) nofun
  rw [if_neg (ne_false_of_eq_true hcks)]
  have hv : validate s = .ok := (validate_ok_iff s).2 ⟨hcur, hhdr, hftr, hcks⟩
  rcases (calValid (extract Config.layout s.fb).timestamp).dichotomy with hdate | hdate
  · rw [if_pos hdate]
    exact execDecodeWith_badDate hv hdate
  · rw [if_neg (ne_false_of_eq_true hdate)]
    exact execDecodeWith_ok hv hdate

/-! ### The checksum as a sum and as a register (R134, R138) -/

theorem sum_bytes_le (fb : Memory) (n : Nat) : ∑ a ∈ Finset.range n, (fb.read a).toNat ≤ n * 255 := by
  have hbyte : ∀ a ∈ Finset.range n, (fb.read a).toNat ≤ 255 := fun a _ => Nat.le_of_lt_succ (fb.read a).isLt
  simpa using Finset.sum_le_card_nsmul _ _ _ hbyte

/-- The register that wraps on every addition holds the sum reduced mod 256, after any number of bytes. -/
theorem toNat_foldl_register (fb : Memory) (n : Nat) :
    ((List.range n).foldl (fun c a => c + fb.read a) 0x00#8).toNat =
      (∑ a ∈ Finset.range n, (fb.read a).toNat) % 256 := by
  induction n with
  | zero => rfl
  | succ n ih =>
    rw [List.range_succ, List.foldl_append, List.foldl_cons, List.foldl_nil, BitVec.toNat_add, ih, Nat.mod_add_mod,
      Finset.sum_range_succ]

/-- The right header and footer add 0x3FF to the data bytes. -/
theorem sum_bytes_of_hdrOk_ftrOk {fb : Memory} (hhdr : hdrOk fb = true) (hftr : ftrOk fb = true) :
    ∑ a ∈ Finset.range 624, (fb.read a).toNat = 0x3FF + ∑ a ∈ Finset.Ico 3 622, (fb.read a).toNat := by
  obtain ⟨h0, h1, h2⟩ := (hdrOk_iff fb).1 hhdr
  obtain ⟨h622, h623⟩ := (ftrOk_iff fb).1 hftr
  have hheader : ∑ a ∈ Finset.range 3, (fb.read a).toNat = 0x202 := by
    simp [Finset.sum_range_succ, h0, h1, h2]
  rw [Finset.sum_range_succ, Finset.sum_range_succ, h622, h623,
    ← Finset.sum_range_add_sum_Ico _ (show 3 ≤ 622 by decide), hheader]
  change 0x202 + _ + 0xFF + 0xFE = _
  omega

/-- Settles O37: the sum of 624 bytes is the register's value mod 256; its fixed part is 0xFF mod 256. -/
theorem checksumIsWrappingSum : Obligations.ChecksumIsWrappingSum := by
  intro fb
  refine ⟨toNat_checksum fb, sum_bytes_le fb 624, ?_, fun hhdr hftr => ?_⟩
  · apply BitVec.eq_of_toNat_eq
    rw [toNat_checksum, toNat_foldl_register]
  have hsum : (checksum fb).toNat = (0xFF + ∑ a ∈ Finset.Ico 3 622, (fb.read a).toNat) % 256 := by
    rw [toNat_checksum, sum_bytes_of_hdrOk_ftrOk hhdr hftr]
    omega
  refine ⟨hsum, fun hzero => BitVec.eq_of_toNat_eq ?_⟩
  have hdata : ∑ a ∈ Finset.Ico 3 622, (fb.read a).toNat = 0 := by
    refine Finset.sum_eq_zero fun a ha => ?_
    obtain ⟨h3, h622⟩ := Finset.mem_Ico.1 ha
    rw [hzero a h3 (Nat.le_of_lt_succ h622)]
    rfl
  rw [hsum, hdata]
  rfl

/-! ### One byte changed (R137) -/

section
variable {m : Memory} {j : Nat} {c : Byte}

theorem hdrOk_write_of_lt (hok : hdrOk m = true) (hj : j < 3) (hc : c ≠ m.read j) : hdrOk (m.write j c) = false := by
  rw [← Bool.not_eq_true]
  intro hok'
  have hagree : ∀ a, a < 3 → (m.write j c).read a = m.read a := by
    obtain ⟨h0, h1, h2⟩ := (hdrOk_iff m).1 hok
    obtain ⟨h0', h1', h2'⟩ := (hdrOk_iff _).1 hok'
    intro a ha
    interval_cases a
    · rw [h0, h0']
    · rw [h1, h1']
    · rw [h2, h2']
  exact hc (by rw [← hagree j hj, read_write_self])

theorem hdrOk_write_of_ge (hj : 3 ≤ j) : hdrOk (m.write j c) = hdrOk m :=
  hdrOk_congr fun _ ha => read_write_ne m c (by omega)

theorem ftrOk_write_of_footer (hok : ftrOk m = true) (hj : j = 622 ∨ j = 623) (hc : c ≠ m.read j) :
    ftrOk (m.write j c) = false := by
  rw [← Bool.not_eq_true]
  intro hok'
  obtain ⟨h622, h623⟩ := (ftrOk_iff m).1 hok
  obtain ⟨h622', h623'⟩ := (ftrOk_iff _).1 hok'
  rcases hj with rfl | rfl
  · exact hc (by rw [h622, ← h622', read_write_self])
  · exact hc (by rw [h623, ← h623', read_write_self])

theorem ftrOk_write_of_ne (hj : ¬ (j = 622 ∨ j = 623)) : ftrOk (m.write j c) = ftrOk m := by
  rw [Bool.eq_iff_iff, ftrOk_iff, ftrOk_iff, read_write_ne m c (by omega), read_write_ne m c (by omega)]

/-- A summed byte changed moves the checksum by the difference, in 8 bits. -/
theorem checksum_write (hj : j < 624) : checksum (m.write j c) = checksum m + (c - m.read j) := by
  have hsum := sum_write m j c hj
  have hadd : checksum (m.write j c) + m.read j = checksum m + c := by
    apply BitVec.eq_of_toNat_eq
    rw [BitVec.toNat_add, BitVec.toNat_add, toNat_checksum, toNat_checksum, Nat.mod_add_mod, Nat.mod_add_mod, hsum]
  rw [← add_sub_assoc, ← hadd, add_sub_cancel_right]

theorem cksOk_write (hok : cksOk m = true) (hj : j < 625) (hc : c ≠ m.read j) : cksOk (m.write j c) = false := by
  rw [cksOk_iff] at hok
  rw [← Bool.not_eq_true, cksOk_iff]
  rcases Nat.lt_succ_iff_lt_or_eq.1 hj with hj | rfl
  · rw [read_write_ne m c hj.ne', hok, checksum_write hj, left_eq_add, sub_eq_zero]
    exact hc
  · rwa [read_write_self, checksum_congr fun a ha => read_write_ne m c ha.ne, ← hok]

end

/-- Any change of any one byte fails the check that covers the byte. -/
theorem validate_write {s : State} {j : Nat} {c : Byte} (hv : validate s = .ok) (hj : j < 625)
    (hc : c ≠ s.fb.read j) :
    validate { s with fb := s.fb.write j c } =
      if j < 3 then .errHeader else if j = 622 ∨ j = 623 then .errFooter else .errChecksum := by
  obtain ⟨hcur, hhdr, hftr, hcks⟩ := (validate_ok_iff s).1 hv
  by_cases hhead : j < 3
  · rw [if_pos hhead]
    exact validate_headerBad hcur (hdrOk_write_of_lt hhdr hhead hc)
  have hhdr' : hdrOk (s.fb.write j c) = true := by rw [hdrOk_write_of_ge (not_lt.1 hhead), hhdr]
  rw [if_neg hhead]
  by_cases hfoot : j = 622 ∨ j = 623
  · rw [if_pos hfoot]
    exact validate_footerBad hcur hhdr' (ftrOk_write_of_footer hftr hfoot hc)
  · rw [if_neg hfoot]
    exact validate_checksumBad hcur hhdr' (by rw [ftrOk_write_of_ne hfoot, hftr]) (cksOk_write hcks hj hc)

/-- DECODE answers OK or ERR_FIELD only when checks 1 to 4 pass (R135). -/
theorem validate_of_decode_status {s : State} {r : Rsp} (hr : (perform .decode s).rspPort = some r)
    (hst : r.status = .ok ∨ r.status = .errField) : validate s = .ok := by
  by_contra hv
  rw [decode_status hr, if_neg fun h => hv h.1] at hst
  rcases hst with hst | hst
  · exact hv hst
  · have hcases := validate_cases s
    simp [hst] at hcases

theorem flipBit_ne {b : Nat} (hb : b < 8) (x : Byte) : x ^^^ (1#8 <<< b) ≠ x := by
  have hbit : ∀ b < 8, 1#8 <<< b ≠ 0#8 := by decide
  intro h
  exact hbit b hb (by simpa using h)

/-- Settles O38: a flipped bit changes its byte, and checks 1 to 4 cover every byte; the checksum moves by the sum of
the two differences, 1 and -1. -/
theorem singleBitErrorsDetected : Obligations.SingleBitErrorsDetected := by
  intro s t r h hr hst
  obtain rfl := perform_of_exec h
  have hv : validate s = .ok := validate_of_decode_status hr hst
  refine ⟨fun j b hj hb => ?_, fun a b _ ha _ hb hab => ?_⟩
  · refine ⟨_, exec_decode_fails (validate_write hv hj (flipBit_ne hb _)) ?_, rfl⟩
    split_ifs <;> decide
  · rw [checksum_write (by omega), checksum_write (by omega), read_write_ne _ _ hab.symm]
    ring

end Sys2Proof.Machine
end

section
/-!
The Reading payload (R171).
-/

namespace Sys2Proof.Machine

/-! ### Values as words -/

/-- Value `j` stands in words `2j` and `2j+1`, high word first. -/
theorem getElem?_flatMap_valueWords (vs : List Dword) (j : Nat) :
    (vs.flatMap valueWords)[2 * j]? = vs[j]?.map (·.extractLsb' 32 32) ∧
    (vs.flatMap valueWords)[2 * j + 1]? = vs[j]?.map (·.extractLsb' 0 32) := by
  induction vs generalizing j with
  | nil => exact ⟨rfl, rfl⟩
  | cons v vs ih =>
    cases j with
    | zero => exact ⟨rfl, rfl⟩
    | succ j => exact ih j

/-! ### The identifier's characters in one value -/

/-- One step of `asciiValue`: a character put below the value so far. -/
def pushChar (v : Dword) (c : Byte) : Dword := (v <<< 8) ||| c.setWidth 64

section
variable (v : Dword) (c : Byte)

theorem extractLsb'_pushChar_low : (pushChar v c).extractLsb' 0 8 = c := by
  apply BitVec.eq_of_getLsbD_eq
  intro i hi
  have h64 : i < 64 := by omega
  simp [pushChar, hi, h64]

/-- The characters before it are 8 bits higher than they were. -/
theorem extractLsb'_pushChar_high {k : Nat} (hk : k + 16 ≤ 64) :
    (pushChar v c).extractLsb' (k + 8) 8 = v.extractLsb' k 8 := by
  apply BitVec.eq_of_getLsbD_eq
  intro i hi
  have h64 : k + 8 + i < 64 := by omega
  have h8 : ¬ k + 8 + i < 8 := by omega
  have hc : c.getLsbD (k + 8 + i) = false := BitVec.getLsbD_of_ge _ _ (by omega)
  have hv : k + 8 + i - 8 = k + i := by omega
  simp [pushChar, hi, h64, h8, hc, hv, BitVec.getLsbD_eq_getElem (show k + i < 64 by omega)]

end

/-- After `n` characters, character `k` has `n - 1 - k` characters below it. -/
theorem extractLsb'_foldl_pushChar (cs : List Byte) {n k : Nat} (hn : n ≤ 8) (hk : k < n) :
    ((List.range n).foldl (fun v j => pushChar v (cs.getD j 0x00)) 0).extractLsb' (8 * (n - 1 - k)) 8 =
      cs.getD k 0x00 := by
  induction n with
  | zero => omega
  | succ n ih =>
    rw [List.range_succ, List.foldl_append, List.foldl_cons, List.foldl_nil]
    by_cases hlast : k = n
    · rw [hlast, show 8 * (n + 1 - 1 - n) = 0 by omega]
      exact extractLsb'_pushChar_low _ _
    · rw [show 8 * (n + 1 - 1 - k) = 8 * (n - 1 - k) + 8 by omega, extractLsb'_pushChar_high _ _ (by omega)]
      exact ih (by omega) (by omega)

theorem extractLsb'_asciiValue (cs : List Byte) {k : Nat} (hk : k < 8) :
    (asciiValue cs).extractLsb' (56 - 8 * k) 8 = cs.getD k 0x00 := by
  rw [show 56 - 8 * k = 8 * (8 - 1 - k) by omega]
  exact extractLsb'_foldl_pushChar cs le_rfl hk

/-! ### Where the tables of the Reading stand among its values -/

section
variable (r : Reading)

theorem values_absEnergy : (r.values.drop 1).take 48 = r.absEnergy.toList := by
  simp [Reading.values]

theorem values_polEnergy : (r.values.drop 49).take 48 = r.polEnergy.toList := by
  simp [Reading.values]

theorem values_currentRaw : (r.values.drop 101).take 48 = r.currentRaw.toList.map (·.setWidth 64) := by
  simp [Reading.values, List.drop_append, List.drop_eq_nil_of_le]

theorem values_pulse : (r.values.drop 150).take 4 = r.pulse.toList.map (·.setWidth 64) := by
  simp [Reading.values, List.drop_append, List.drop_eq_nil_of_le]

theorem values_tempRaw : (r.values.drop 154).take 8 = r.tempRaw.toList.map (·.setWidth 64) := by
  simp [Reading.values, List.drop_append, List.drop_eq_nil_of_le]

end

/-- Element `i` of the slice of `n` elements that starts at `a` is element `a + i` of the whole. -/
theorem getElem?_of_slice {vs xs : List Dword} {a n i : Nat} (h : (vs.drop a).take n = xs) (hi : i < n) :
    vs[a + i]? = xs[i]? := by
  rw [← h, List.getElem?_take_of_lt hi, List.getElem?_drop]

/-- Settles O8: the words are the values two by two; each table is a slice of the values, and a single field stands at its
own index. -/
theorem readingPayloadOrder : Obligations.ReadingPayloadOrder := by
  intro r
  refine ⟨fun p hp => ?words, length_values r, length_words r, fun j v hv => ?valueWords, ?_,
    fun i => (getElem?_of_slice (values_absEnergy r) i.isLt).trans (by simp),
    fun i => (getElem?_of_slice (values_polEnergy r) i.isLt).trans (by simp), ?_, ?_, ?_,
    ⟨asciiValue r.deviceId, ?_, fun k hk => extractLsb'_asciiValue r.deviceId hk⟩,
    fun i => (getElem?_of_slice (values_currentRaw r) i.isLt).trans (by simp), ?_,
    fun i => (getElem?_of_slice (values_pulse r) i.isLt).trans (by simp),
    fun i => (getElem?_of_slice (values_tempRaw r) i.isLt).trans (by simp), ?_, ?_, ?_, ?_, ?_, ?_⟩
  case words => rw [Rsp.words, hp]
  case valueWords =>
    have hwords := getElem?_flatMap_valueWords r.values j
    rwa [hv] at hwords
  all_goals simp [Reading.values]

end Sys2Proof.Machine
end

section
/-!
The extraction primitives and re-encoding (R12, R151 to R155, R176), the range of each field of a Reading (R170, R173)
and its exact scaling (R172).
-/

namespace Sys2Proof.Machine

/-! ### The shift-and-or formulas (R151 to R155) -/

section
variable (fb : Memory) (o : Nat)

theorem toNat_u16le_or : (u16le fb o).toNat = (fb.read o).toNat ||| ((fb.read (o + 1)).toNat <<< 8) :=
  (BitVec.toNat_append _ _).trans (Nat.or_comm _ _)

theorem toNat_u16be_or : (u16be fb o).toNat = ((fb.read o).toNat <<< 8) ||| (fb.read (o + 1)).toNat :=
  BitVec.toNat_append _ _

theorem toNat_u24be_or :
    (u24be fb o).toNat =
      ((fb.read o).toNat <<< 16) ||| ((fb.read (o + 1)).toNat <<< 8) ||| (fb.read (o + 2)).toNat := by
  show ((((0x00 : Byte) ++ fb.read o) ++ fb.read (o + 1)) ++ fb.read (o + 2)).toNat = _
  simp only [BitVec.toNat_append, Nat.shiftLeft_or_distrib, ← Nat.shiftLeft_add]
  simp

theorem toNat_u40be_or :
    (u40be fb o).toNat =
      ((fb.read o).toNat <<< 32) ||| ((fb.read (o + 1)).toNat <<< 24) ||| ((fb.read (o + 2)).toNat <<< 16) |||
        ((fb.read (o + 3)).toNat <<< 8) ||| (fb.read (o + 4)).toNat := by
  rw [u40be, BitVec.toNat_setWidth_of_le (by decide)]
  simp only [BitVec.toNat_append, Nat.shiftLeft_or_distrib, ← Nat.shiftLeft_add]

theorem u40be_toInt_nonneg : 0 ≤ (u40be fb o).toInt := toInt_nonneg_of_lt (u40be_lt fb o)

end

/-- Settles O41: a concatenation of bytes is the or of its shifted bytes, and the wider values have zeros above them. -/
theorem primitivesAssembleBytes : Obligations.PrimitivesAssembleBytes := fun fb o =>
  ⟨rfl, toNat_u16le_or fb o, toNat_u16be_or fb o, toNat_u24be_or fb o, u24be_lt fb o, toNat_u40be_or fb o,
    u40be_lt fb o, u40be_toInt_nonneg fb o⟩

/-! ### Encoding a number back into bytes (R12, R176) -/

theorem beValue_concat (bs : List Byte) (b : Byte) : beValue (bs ++ [b]) = beValue bs * 256 + b.toNat := by
  simp [beValue]

theorem beBytes_succ (n v : Nat) : beBytes (n + 1) v = beBytes n (v / 256) ++ [BitVec.ofNat 8 v] := by
  have hlast : v >>> (8 * (n + 1 - 1 - n)) = v := by simp
  rw [beBytes, List.range_succ, List.map_append, List.map_singleton, hlast, beBytes]
  congr 1
  refine List.map_congr_left fun k hk => ?_
  have hk := List.mem_range.1 hk
  rw [show 8 * (n + 1 - 1 - k) = 8 + 8 * (n - 1 - k) by omega, Nat.shiftRight_add, Nat.shiftRight_eq_div_pow v 8]

/-- A number with `b` put below it has `b` as its lowest byte. -/
theorem ofNat_mul_add_toNat (v : Nat) (b : Byte) : BitVec.ofNat 8 (v * 256 + b.toNat) = b := by
  apply BitVec.eq_of_toNat_eq
  rw [BitVec.toNat_ofNat]
  omega

/-- `beBytes` inverts BE (R12, R176). -/
theorem beBytes_beValue (bs : List Byte) : beBytes bs.length (beValue bs) = bs := by
  induction bs using List.reverseRecOn with
  | nil => rfl
  | append_singleton bs b ih =>
    have hhigh : (beValue bs * 256 + b.toNat) / 256 = beValue bs := by omega
    rw [List.length_append, List.length_singleton, beBytes_succ, beValue_concat, hhigh, ih, ofNat_mul_add_toNat]

theorem leBytes_succ (n v : Nat) : leBytes (n + 1) v = BitVec.ofNat 8 v :: leBytes n (v / 256) := by
  rw [leBytes, List.range_succ_eq_map, List.map_cons, List.map_map]
  congr 1
  refine List.map_congr_left fun k _ => ?_
  show BitVec.ofNat 8 (v >>> (8 * (k + 1))) = _
  rw [show 8 * (k + 1) = 8 + 8 * k by omega, Nat.shiftRight_add, Nat.shiftRight_eq_div_pow v 8]

/-- `leBytes` inverts LE (R12, R176). -/
theorem leBytes_leValue (bs : List Byte) : leBytes bs.length (leValue bs) = bs := by
  induction bs with
  | nil => rfl
  | cons b bs ih =>
    have hlow : leValue (b :: bs) = leValue bs * 256 + b.toNat := by
      rw [leValue]
      omega
    have hhigh : (leValue bs * 256 + b.toNat) / 256 = leValue bs := by omega
    rw [List.length_cons, leBytes_succ, hlow, hhigh, ih, ofNat_mul_add_toNat]

/-! ### Re-encoding what a primitive read -/

section
variable (fb : Memory) (o : Nat)

theorem leBytes_u16le : leBytes 2 (u16le fb o).toNat = (List.range 2).map fun k => fb.read (o + k) := by
  rw [toNat_u16le]
  exact leBytes_leValue [fb.read o, fb.read (o + 1)]

theorem beBytes_u16be : beBytes 2 (u16be fb o).toNat = (List.range 2).map fun k => fb.read (o + k) := by
  have hvalue : (u16be fb o).toNat = beValue [fb.read o, fb.read (o + 1)] := by
    simp [toNat_u16be, beValue, Nat.mul_comm]
  rw [hvalue]
  exact beBytes_beValue [fb.read o, fb.read (o + 1)]

theorem beBytes_u24be : beBytes 3 (u24be fb o).toNat = (List.range 3).map fun k => fb.read (o + k) := by
  have hvalue : (u24be fb o).toNat = beValue [fb.read o, fb.read (o + 1), fb.read (o + 2)] := by
    simp [toNat_u24be, beValue]
  rw [hvalue]
  exact beBytes_beValue [fb.read o, fb.read (o + 1), fb.read (o + 2)]

theorem beBytes_u40be : beBytes 5 (u40be fb o).toNat = (List.range 5).map fun k => fb.read (o + k) := by
  have hvalue : (u40be fb o).toNat =
      beValue [fb.read o, fb.read (o + 1), fb.read (o + 2), fb.read (o + 3), fb.read (o + 4)] := by
    simp [toNat_u40be, beValue]
  rw [hvalue]
  exact beBytes_beValue [fb.read o, fb.read (o + 1), fb.read (o + 2), fb.read (o + 3), fb.read (o + 4)]

end

/-- Settles O47: each field is its primitive at its offset, and re-encoding undoes the primitive. -/
theorem reencodingGivesRawBytes : Obligations.ReencodingGivesRawBytes := by
  intro L fb raw r
  refine ⟨leBytes_u16le fb L.volt, fun i => ?_, fun i => ?_, fun i => ?_, beBytes_u24be fb L.secs, fun i => ?_⟩
  · rw [extract_absEnergy]
    exact beBytes_u40be fb _
  · rw [extract_polEnergy]
    exact beBytes_u40be fb _
  · rw [extract_currentRaw]
    exact beBytes_u16be fb _
  · rw [extract_pulse]
    exact beBytes_u24be fb _

/-! ### The ranges of the fields (R173) -/

/-- Settles O46: each field's primitive has its range whatever the bytes are; with a valid date nothing of R170 is left
to check. -/
theorem onlyTimestampCanFail : Obligations.OnlyTimestampCanFail := by
  intro L fb r
  refine ⟨fun i => ?_, fun i => ?_, u24be_lt fb L.secs, fun i => ?_, ?_, deviceIdOf_digits _ _, extract_legal⟩
  · rw [extract_absEnergy]
    exact ⟨u40be_lt fb _, u40be_toInt_nonneg fb _⟩
  · rw [extract_polEnergy]
    exact ⟨u40be_lt fb _, u40be_toInt_nonneg fb _⟩
  · rw [extract_pulse]
    exact u24be_lt fb _
  · show (deviceIdOf _ _).length = 7 ∨ (deviceIdOf _ _).length = 8
    rw [deviceIdOf_length]
    split_ifs <;> decide

/-! ### Scaled quantities (R172) -/

/-- Settles O48: each quotient is undone by its divisor, and a fiftieth is two hundredths. -/
theorem scaledQuantitiesExact : Obligations.ScaledQuantitiesExact := by
  intro r
  refine ⟨div_mul_cancel₀ _ (by norm_num),
    fun i => ⟨div_mul_cancel₀ _ (by norm_num), 2 * r.currentRaw[i].toNat, ?_⟩,
    fun i => div_mul_cancel₀ _ (by norm_num)⟩
  rw [Reading.current]
  push_cast
  ring

end Sys2Proof.Machine
end

section
/-!
The device identifier (R161, R162) and the calendar (R168, R169).
-/

namespace Sys2Proof.Machine

/-! ### The device identifier -/

/-- Settles O43: the padding and the digits make up the length, each is an ASCII digit, and the padding reads as 0. -/
theorem decimalFormatting : Obligations.DecimalFormatting := by
  refine fun w v => ⟨?_, decFormat_digits w v, decFormat_value w v⟩
  rw [decFormat_length, decDigits_length]

/-- A formatted number is read back as itself, so two numbers of one format are equal. -/
theorem decFormat_injective (w : Nat) : Function.Injective (decFormat w) :=
  Function.LeftInverse.injective (decFormat_value w)

/-- The serial's part has 5 characters whatever the serial is, so the two parts of an identifier are known from it. -/
theorem deviceIdOf_inj {d e : Byte} {s t : Half} (h : deviceIdOf d s = deviceIdOf e t) : d = e ∧ s = t := by
  have hlen : (decFormat 5 s.toNat).length = (decFormat 5 t.toNat).length := by
    rw [decFormat_serial_length, decFormat_serial_length]
  obtain ⟨htype, hserial⟩ := List.append_inj' h hlen
  exact ⟨BitVec.eq_of_toNat_eq (decFormat_injective 2 htype), BitVec.eq_of_toNat_eq (decFormat_injective 5 hserial)⟩

/-- Settles O44: the form is the definition, the lengths are those of the two parts, and the serial's part is always the
last 5 characters. -/
theorem deviceIdentifierIsUnique : Obligations.DeviceIdentifierIsUnique :=
  ⟨fun d s => ⟨rfl, decFormat_serial_length s, deviceIdOf_length d s⟩, fun _ _ _ _ => deviceIdOf_inj⟩

/-! ### The calendar -/

theorem leap_iff (y : Nat) : leap y = true ↔ (y % 4 = 0 ∧ y % 100 ≠ 0) ∨ y % 400 = 0 := by
  simp [leap]

/-- A day counted from 1 is in the month exactly when the month is one of its length (R169). -/
theorem le_daysInMonth_iff (y m : Nat) {d : Nat} (hd : 1 ≤ d) :
    d ≤ daysInMonth y m ↔
      m ∈ [1, 3, 5, 7, 8, 10, 12] ∧ d ≤ 31 ∨ m ∈ [4, 6, 9, 11] ∧ d ≤ 30 ∨
        m = 2 ∧ d ≤ if (y % 4 = 0 ∧ y % 100 ≠ 0) ∨ y % 400 = 0 then 29 else 28 := by
  unfold daysInMonth
  split
  case h_13 =>
    -- a month of no list has no day
    refine iff_of_false (by omega) ?_
    grind
  all_goals simp [leap_iff]

theorem calValid_iff (t : Timestamp) :
    calValid t = true ↔
      (1 ≤ t.month.toNat ∧ t.month.toNat ≤ 12) ∧
      (1 ≤ t.day.toNat ∧ t.day.toNat ≤ daysInMonth t.year.toNat t.month.toNat) ∧
      t.hour.toNat ≤ 23 ∧ t.minute.toNat ≤ 59 ∧ t.second.toNat ≤ 59 := by
  simp only [calValid, Bool.and_eq_true, decide_eq_true_eq, and_assoc]

/-- Settles O45: CAL_VALID with the days of the month written out, and the leap rule between 2000 and 2255. -/
theorem calendarRule : Obligations.CalendarRule := by
  refine ⟨fun t => ?_, fun y hlo hhi => ?_⟩
  · rw [calValid_iff]
    exact and_congr_right' (and_congr_left' (and_congr_right fun hday => le_daysInMonth_iff _ _ hday))
  · rw [leap_iff]
    omega

end Sys2Proof.Machine
end

section
/-!
The wait duty of the host (R212, R237), and a port with no whole command on it (R211).
-/

namespace Sys2Proof.Machine

/-! ### A port with no whole command -/

/-- Settles O10: an empty port is idle, and one with too few payload words is waiting. -/
theorem incompleteCommandWaits : Obligations.IncompleteCommandWaits := by
  rintro s (hport | ⟨w, ws, hport, hopc, hshort⟩)
  · exact step_idle ((nextCommand_of_port hport).trans decodeCommand_nil)
  · rw [← immOf, ← payloadCount_append hopc] at hshort
    exact step_waiting ((nextCommand_of_port hport).trans (decodeCommand_short hshort))

/-! ### What the host may issue -/

/-- The words of one command are its command word and exactly its payload words (R76). -/
theorem oneCommand_iff (ws : List Word) :
    oneCommand ws = true ↔ ∃ w p, ws = w :: p ∧ p.length = payloadCount w := by
  cases ws with
  | nil => exact iff_of_false nofun nofun
  | cons w p =>
    have hsplit : (∃ v q, w :: p = v :: q ∧ q.length = payloadCount v) ↔ p.length = payloadCount w := by simp
    rw [hsplit]
    rcases lt_or_ge p.length (payloadCount w) with hlt | hge
    · rw [oneCommand, decodeCommand_short hlt]
      exact iff_of_false nofun hlt.ne
    · have hrest : (p.drop (payloadCount w)).isEmpty = true ↔ p.length = payloadCount w := by
        rw [List.isEmpty_iff, List.drop_eq_nil_iff]
        exact ⟨fun h => h.antisymm hge, Eq.le⟩
      rw [oneCommand]
      cases hw : decodeWord w (p.take (payloadCount w)) with
      | ok i => rw [decodeCommand_of_ok hge hw]; exact hrest
      | error why => rw [decodeCommand_of_error hge hw]; exact hrest

/-- Words after those of one command make more than one command. -/
theorem oneCommand_append_cons {ws : List Word} (h : oneCommand ws = true) (v : Word) (vs : List Word) :
    oneCommand (ws ++ v :: vs) = false := by
  obtain ⟨w, p, rfl, hp⟩ := (oneCommand_iff ws).1 h
  rw [Bool.eq_false_iff]
  intro hmore
  obtain ⟨w', p', hcons, hp'⟩ := (oneCommand_iff _).1 hmore
  obtain ⟨rfl, rfl⟩ := List.cons.inj hcons
  simp [hp] at hp'

/-- A step on the words of one command consumes them all and leaves one response. -/
theorem step_oneCommand {s : State} (h : oneCommand s.cmdPort = true) :
    ∃ t r, step s = .next t ∧ t.cmdPort = [] ∧ t.rspPort = some r := by
  obtain ⟨w, p, hport, hp⟩ := (oneCommand_iff _).1 h
  obtain ⟨t, r, hstep, hcmd, hr, -, -⟩ := step_answers hport hp.ge
  exact ⟨t, r, hstep, hcmd.trans (List.drop_eq_nil_of_le hp.le), hr⟩

/-- Settles O14: the issued words keep the host from issuing until the step consumes them, and then the response does. -/
theorem hostWaitsForEachResponse : Obligations.HostWaitsForEachResponse := by
  constructor
  · intro s t ws hissue
    obtain ⟨hcmd, hrsp, hone, rfl⟩ := issue_cases hissue
    have hne : ws ≠ [] := by rintro rfl; exact nomatch hone
    obtain ⟨u, r, hstep, hcmd', hr⟩ := step_oneCommand (s := { s with cmdPort := ws }) hone
    have hpending : u.rspPort ≠ none := by rw [hr]; exact nofun
    exact ⟨hcmd, hrsp, rfl, fun vs => issue_busy vs (.inl hne),
      u, r, hstep, hcmd', hr, fun vs => issue_busy vs (.inr hpending), takeResponse_some hr⟩
  · intro s i w ws
    rw [State.issue, oneCommand_append_cons (oneCommand_portWords i), Bool.and_false]
    rfl

end Sys2Proof.Machine
end

section
/-!
The reference host of R213 keeps the duty of R234: every exit of a chunk that ends a frame is a RESET.
-/

namespace Sys2Proof.Machine

/-! ### One more command at the end of a run (R234) -/

theorem runCommands_concat (is : List Instr) (i : Instr) (s : State) :
    (runCommands (is ++ [i]) s).2 = perform i (runCommands is s).2 := by
  rw [runCommands_append]
  rfl

theorem overAfterAll_concat (due : Bool) (is : List Instr) (i : Instr) (s : State) :
    overAfterAll due (is ++ [i]) s =
      overAfter (overAfterAll due is s) i (perform i (runCommands is s).2) := by
  induction is generalizing due s with
  | nil => rfl
  | cons j is ih => exact ih _ _

/-- The duty on one command: it is no APPEND while a frame is over. -/
def mayIssue (due : Bool) : Instr → Bool
  | .append _ => !due
  | _         => true

/-- The duty on a list of commands is that on its first, and that on the others after it. -/
theorem dutiful_cons (due : Bool) (i : Instr) (is : List Instr) (s : State) :
    dutiful due (i :: is) s = (mayIssue due i && dutiful (overAfter due i (perform i s)) is (perform i s)) := rfl

theorem dutiful_concat (due : Bool) (is : List Instr) (i : Instr) (s : State) :
    dutiful due (is ++ [i]) s = (dutiful due is s && mayIssue (overAfterAll due is s) i) := by
  induction is generalizing due s with
  | nil => exact (dutiful_cons due i [] s).trans (Bool.and_comm _ _)
  | cons j is ih => rw [List.cons_append, dutiful_cons, dutiful_cons, ih, Bool.and_assoc]; rfl

/-! ### The driver's record -/

/-- The part of `Driver.Inv` that holds at every command, also inside a chunk: the block is in the state of the commands
issued, they meet the duty of R234, and `due` says whether a frame is over. -/
structure Driver.Records (d : Driver) (due : Bool) : Prop where
  block_eq : d.block = (runCommands d.issued State.reset).2
  dutiful  : dutiful false d.issued State.reset = true
  over_eq  : overAfterAll false d.issued State.reset = due

theorem Driver.Inv.records {d : Driver} (h : d.Inv) : d.Records false := ⟨h.block_eq, h.dutiful, h.not_over⟩

theorem Driver.Records.inv {d : Driver} (h : d.Records false) (hcur : d.block.cur.val < 625)
    (hgood : d.block.hdrBad = false) : d.Inv :=
  ⟨h.block_eq, h.dutiful, h.over_eq, hcur, hgood⟩

/-- The latch is no part of the record. -/
theorem Driver.Records.withLatch {d : Driver} {due : Bool} (h : d.Records due) (latch : Bool) :
    { d with failedLatch := latch }.Records due :=
  ⟨h.block_eq, h.dutiful, h.over_eq⟩

/-- Each command sent is recorded, and the duty on the run so far is the duty on that command. -/
theorem Driver.Records.send {d : Driver} {due : Bool} (h : d.Records due) {i : Instr} (hi : mayIssue due i = true) :
    (d.send i).Records (overAfter due i (d.send i).block) := by
  obtain ⟨hblock, hdutiful, hover⟩ := h
  refine ⟨?_, ?_, ?_⟩
  · exact (congrArg (perform i) hblock).trans (runCommands_concat _ _ _).symm
  · exact (dutiful_concat _ _ _ _).trans (by rw [hdutiful, hover, hi]; rfl)
  · exact (overAfterAll_concat _ _ _ _).trans (by rw [hover, ← hblock]; rfl)

/-- RESET is always allowed, and meets the whole invariant again (R106, R234). -/
theorem Driver.Records.send_reset {d : Driver} {due : Bool} (h : d.Records due) : (d.send .reset).Inv :=
  (h.send (i := .reset) rfl).inv (Nat.zero_lt_succ 624) rfl

/-- `bad_event()` issues no command. -/
theorem Driver.Inv.badEvent {d : Driver} (h : d.Inv) : d.badEvent.Inv := by
  rw [Driver.badEvent]
  split
  · exact h
  · exact ⟨h.block_eq, h.dutiful, h.not_over, h.cur_lt, h.hdr_good⟩

/-! ### The answers the host branches on -/

/-- An APPEND answered OK ends no frame, and the header it leaves is not bad (R101, R102). -/
theorem perform_append_ok {c : List Byte} {s : State} {r : Rsp} (hr : (perform (.append c) s).rspPort = some r)
    (hok : r.status = .ok) :
    frameOver (.append c) (perform (.append c) s) = false ∧ (perform (.append c) s).hdrBad = false := by
  refine ⟨by simp [frameOver, hr, hok], ?_⟩
  cases perform_cases (.append c) s with
  | accepted d h _ _ ht =>
    rw [ht, respond_rspPort] at hr
    obtain rfl := Option.some.inj hr
    rw [ht, Bool.eq_false_iff]
    intro hbad
    exact absurd ((if_pos hbad).symm.trans hok) (by decide)
  | cleared hi _ => exact nomatch hi
  | reading hi _ _ _ => exact nomatch hi
  | answered st v _ _ ha _ ht =>
    rw [ht, respond_rspPort] at hr
    obtain rfl := Option.some.inj hr
    obtain rfl : st = .ok := hok
    rcases ha c rfl with ⟨h, -⟩ | ⟨h, -⟩
    · exact nomatch h
    · exact nomatch h

/-- The host goes on after an APPEND only where it ended no frame and the header is not bad (R213). -/
theorem Driver.append_answeredOk {d : Driver} {c : List Byte} (hok : (d.send (.append c)).answeredOk = true) :
    frameOver (.append c) (d.send (.append c)).block = false ∧ (d.send (.append c)).block.hdrBad = false := by
  obtain ⟨r, hr, -⟩ := perform_rspPort (.append c) d.block
  have hst : r.status = .ok := by simpa [Driver.answeredOk, Driver.send, hr] using hok
  exact perform_append_ok hr hst

/-- The host's IS_COMPLETE is answered 1 exactly when CUR is 625 (R104). -/
theorem Driver.isComplete_answeredTrue (d : Driver) :
    (d.send .isComplete).answeredTrue = true ↔ (d.send .isComplete).block.cur.val = 625 := by
  have hanswer : (d.send .isComplete).answeredTrue = decide (flagVal d.block.complete = 1) := rfl
  have hcur : (d.send .isComplete).block.cur = d.block.cur := rfl
  rw [hanswer, hcur, decide_eq_true_iff, State.complete, flagVal_decide]
  by_cases h : d.block.cur.val = 625
  · simp [h]
  · simp [h]

/-! ### One chunk (R213) -/

/-- The driver once its APPEND was answered OK: its latch is clear and it has asked IS_COMPLETE. -/
def Driver.asked (d : Driver) (c : List Byte) : Driver :=
  { d.send (.append c) with failedLatch := false }.send .isComplete

/-- Everything a chunk can do: a failed APPEND ends in RESET, an incomplete frame in IS_COMPLETE, and a complete one in
DECODE and RESET, with a bad event where APPEND or DECODE fails. -/
theorem Driver.onBytesReceived_eq (d : Driver) (c : List Byte) :
    d.onBytesReceived c =
      if !(d.send (.append c)).answeredOk then (((d.send (.append c)).send .reset).badEvent, none)
      else if !(d.asked c).answeredTrue then (d.asked c, none)
      else if ((d.asked c).send .decode).answeredOk then
        (((d.asked c).send .decode).send .reset, ((d.asked c).send .decode).answeredReading)
      else ((((d.asked c).send .decode).send .reset).badEvent, none) := rfl

/-- An APPEND answered OK and the IS_COMPLETE after it end no frame. -/
theorem Driver.Records.asked {d : Driver} (h : d.Records false) {c : List Byte}
    (hok : (d.send (.append c)).answeredOk = true) : (d.asked c).Records false := by
  have happend : (d.send (.append c)).Records (frameOver (.append c) (d.send (.append c)).block) := h.send rfl
  rw [(Driver.append_answeredOk hok).1] at happend
  exact (happend.withLatch false).send (i := .isComplete) rfl

/-- The invariant through one chunk: every way out is a RESET, or an APPEND answered OK whose frame is not complete. -/
theorem Driver.Inv.onBytesReceived {d : Driver} (h : d.Inv) (c : List Byte) : (d.onBytesReceived c).1.Inv := by
  rw [Driver.onBytesReceived_eq]
  cases hok : (d.send (.append c)).answeredOk with
  | false => exact (h.records.send (i := .append c) rfl).send_reset.badEvent
  | true =>
    have hasked := h.records.asked hok
    cases hfull : (d.asked c).answeredTrue with
    | false =>
      have hcur : (d.asked c).block.cur.val ≠ 625 :=
        mt (Driver.isComplete_answeredTrue _).2 (Bool.eq_false_iff.1 hfull)
      exact hasked.inv ((Nat.le_of_lt_succ (d.asked c).block.cur.isLt).lt_of_ne hcur) (Driver.append_answeredOk hok).2
    | true =>
      have hreset : (((d.asked c).send .decode).send .reset).Inv := (hasked.send (i := .decode) rfl).send_reset
      cases ((d.asked c).send .decode).answeredOk with
      | true => exact hreset
      | false => exact hreset.badEvent

theorem Driver.start_inv : Driver.start.Inv := ⟨rfl, rfl, rfl, Nat.zero_lt_succ 624, rfl⟩

theorem Driver.Inv.feed {d : Driver} (h : d.Inv) (cs : List (List Byte)) : (Driver.feed cs d).1.Inv := by
  induction cs generalizing d with
  | nil => exact h
  | cons c cs ih => exact ih (h.onBytesReceived c)

/-- Settles O50: the step lemma, the start, and the chunks that follow. -/
theorem referenceHostMeetsDuty : Obligations.ReferenceHostMeetsDuty :=
  ⟨fun _ c h => h.onBytesReceived c, Driver.start_inv, Driver.start_inv.feed⟩

end Sys2Proof.Machine
end

section
/-!
Power-on reset against the RESET command (R32, R106, R230).
-/

namespace Sys2Proof.Machine

/-- RESET ends in its response on the cleared block (R106). -/
theorem exec_reset (s : State) : exec .reset s = .next (s.clear.respond Opcode.reset .ok 0 none) := rfl

/-- Clearing leaves the Frame Buffer of power-on reset, from every state (R230). -/
theorem clear_fb_eq_reset_fb (s : State) : s.clear.fb = State.reset.fb := rfl

/-- Clearing leaves the cursor of power-on reset, from every state (R230). -/
theorem clear_cur_eq_reset_cur (s : State) : s.clear.cur = State.reset.cur := rfl

/-- Settles O18: power-on reset lists no cell, so every byte reads 0x00; RESET clears FB and CUR to the same values, and
its response touches neither. -/
theorem powerOnEqualsReset : Obligations.PowerOnEqualsReset := by
  refine ⟨congrArg Fin.val reset_cur, fun a _ => ?_, reset_rspPort, fun s => ⟨_, exec_reset s, ?_, ?_⟩⟩
  · rw [reset_fb, read_nil]
  · rw [respond_fb, clear_fb_eq_reset_fb]
  · rw [respond_cur, clear_cur_eq_reset_cur]

end Sys2Proof.Machine
end
